-- ==== Sys2Proof/Word.lean ====
section
/-! DEFINITION. The words of the machine: character codes, bytes, program-counter values, and the cell,
the one unit of storage (spec 10_state.md R21; 00_scope.md R7). -/

namespace Sys2Proof

/-- A character code, 8 bits, `0x00` to `0xFF` (00_scope.md R7, `Char`). -/
abbrev CharCode := BitVec 8

/-- An unsigned 8-bit value (00_scope.md R7, `Byte`); the float format's bits are read from it. -/
abbrev Byte := BitVec 8

/-- A value of the program counter, 32 bits unsigned (10_state.md R29). -/
abbrev PcWord := BitVec 32

/-- A cell of the register file or of memory: a character string of 0 to 8 characters, first character
leftmost (10_state.md R21). The spec's canonical pair (length, eight slots) and the string determine each
other; `Cell.len` and `Cell.slot` read the pair. The bound of 8 is `Cell.WellFormed`. -/
structure Cell where
  chars : List CharCode
deriving DecidableEq, Repr

/-- The length of a cell, 0 to 8 (10_state.md R21, `len`). -/
def Cell.len (c : Cell) : Nat := c.chars.length

/-- Character slot `i` of a cell: the character, or `0x00` at and above the length (10_state.md R21, `ch[i]`). -/
def Cell.slot (c : Cell) (i : Nat) : CharCode := c.chars.getD i 0x00#8

/-- "A string longer than 8 characters cannot be held" (10_state.md R24). -/
abbrev Cell.WellFormed (c : Cell) : Prop := c.chars.length ≤ 8

/-- The empty cell: length 0, every slot `0x00` (10_state.md R33). -/
def Cell.empty : Cell := ⟨[]⟩

/-- The cell `"00"`: the reset content of every cell (10_state.md R27, R28) and what a refused read answers
(40_storage_ports.md R90, R92). -/
def Cell.zeros : Cell := ⟨[0x30#8, 0x30#8]⟩

/-- The cell that holds a string's characters as ASCII codes (30_encoding.md R72), a cell literal of 00_scope.md R6. -/
def Cell.ofString (t : String) : Cell := ⟨t.toList.map fun c => BitVec.ofNat 8 c.toNat⟩

end Sys2Proof
end

