-- ==== Sys2Proof/Machine/HexCodec.lean ====
section
/-! DEFINITION. The hexadecimal text codec (spec 41_hex_codec_integer_alu.md R100 to R106) and the two-digit
form of a byte (42_float_codec_alu.md R129). -/

namespace Sys2Proof.Machine

/-- `isHexChar` (R100): `0`-`9`, `A`-`F` or `a`-`f`. -/
def isHexChar (c : CharCode) : Bool :=
  (0x30 ≤ c.toNat && c.toNat ≤ 0x39) || (0x41 ≤ c.toNat && c.toNat ≤ 0x46) || (0x61 ≤ c.toNat && c.toNat ≤ 0x66)

/-- `digit` (R101): the value of a hex character, and 0 for every other character. -/
def digit (c : CharCode) : Nat :=
  if 0x30 ≤ c.toNat ∧ c.toNat ≤ 0x39 then c.toNat - 0x30
  else if 0x41 ≤ c.toNat ∧ c.toNat ≤ 0x46 then c.toNat - 0x41 + 10
  else if 0x61 ≤ c.toNat ∧ c.toNat ≤ 0x66 then c.toNat - 0x61 + 10
  else 0

/-- `isValidHex` (R102): every occupied character is a hex character; the empty cell is valid. -/
def isValidHex (c : Cell) : Bool := c.chars.all isHexChar

/-- The value of a string of characters, most significant digit first: `v <- 16*v + digit` (R103). -/
def hexValue (cs : List CharCode) : Nat := cs.foldl (fun v c => 16 * v + digit c) 0

/-- `hexToInt` (R103). A character that is no hex digit keeps its position and counts as 0 (log 12 (UNVERIFIED)). -/
def hexToInt (c : Cell) : Nat := hexValue c.chars

/-- `hexchar` (R104): the upper-case digit of a value 0 to 15. -/
def hexchar (d : Nat) : CharCode := if d < 10 then BitVec.ofNat 8 (0x30 + d) else BitVec.ofNat 8 (0x41 + d - 10)

/-- The shortest numeral of `n` in base 16, at most `k` digits (the bound never cuts a numeral: `intToHex` calls it with
8 and a number below `2^32`; log 23 (DEDUCED)). -/
def hexNumeral : Nat → Nat → List CharCode
  | 0, _ => []
  | k + 1, n => if n < 16 then [hexchar n] else hexNumeral k (n / 16) ++ [hexchar (n % 16)]

/-- `intToHex` (R104): the shortest upper-case base-16 numeral, no padding, `"0"` for 0. Its callers pass numbers below
`2^32` (R108). -/
def intToHex (n : Nat) : Cell := ⟨hexNumeral 8 n⟩

/-- `byteToHex2` (42_float_codec_alu.md R129): two upper-case digits, leading zero kept. -/
def byteToHex2 (b : Byte) : Cell := ⟨[hexchar (b.toNat / 16), hexchar (b.toNat % 16)]⟩

end Sys2Proof.Machine
end

