-- ==== Sys2Proof/Syntax.lean ====
section
/-! DEFINITION. The instructions: one constructor per row of spec/opcode_table.json, each with all the decoded
fields of the word (spec 30_encoding.md R70: "Every instruction has all six fields whether or not it uses them"). -/

namespace Sys2Proof

/-- The decoded fields of a word besides its opcode (10_state.md R34; 30_encoding.md R75, R76). -/
structure Fields where
  /-- Field `R`: the code of character 1 less 48, -48 to 207 (R75). -/
  r : Int
  /-- Field `S`: the code of character 2 less 48 (R75). -/
  s : Int
  /-- Field `T`: the code of character 3 less 48 (R75). -/
  t : Int
  /-- Field `address`: the two hex digits of characters 4 and 5, 0 to 255 (R76). -/
  address : Nat
  /-- Field `immediate`: the two hex digits of characters 6 and 7, 0 to 255; used by no instruction (R76, R79). -/
  immediate : Nat
deriving DecidableEq, Repr

/-- The closed choice over the five opcodes (30_encoding.md R77, R78). The invalid case is no instruction:
the decoder answers it by name. -/
inductive Instr where
  /-- `L`, load register from memory (43_control_unit.md R140). -/
  | load (f : Fields)
  /-- `S`, store register to memory (43_control_unit.md R141). -/
  | store (f : Fields)
  /-- `A`, integer add (41_hex_codec_integer_alu.md R109). -/
  | addInt (f : Fields)
  /-- `J`, jump if equal to register 0 (43_control_unit.md R146). -/
  | jump (f : Fields)
  /-- `H`, halt notice (43_control_unit.md R148). -/
  | halt (f : Fields)
deriving DecidableEq, Repr

/-- The decoded fields of an instruction. -/
def Instr.fields : Instr → Fields
  | .load f => f
  | .store f => f
  | .addInt f => f
  | .jump f => f
  | .halt f => f

end Sys2Proof
end

