-- ==== Sys2Proof/WellFormed.lean ====
section
/-! DEFINITION. Which field values a word can hold (spec 30_encoding.md R75, R76). -/

namespace Sys2Proof

/-- A register field is a character code less 48: -48 to 207 (30_encoding.md R75). -/
abbrev RegFieldWellFormed (i : Int) : Prop := -48 ≤ i ∧ i ≤ 207

/-- A byte field is two hex digits: 0 to 255 (30_encoding.md R76). -/
abbrev ByteFieldWellFormed (n : Nat) : Prop := n ≤ 255

/-- Every field of the record is one that a word can hold. -/
abbrev Fields.WellFormed (f : Fields) : Prop :=
  RegFieldWellFormed f.r ∧ RegFieldWellFormed f.s ∧ RegFieldWellFormed f.t ∧
    ByteFieldWellFormed f.address ∧ ByteFieldWellFormed f.immediate

/-- An instruction that some word encodes. -/
abbrev Instr.WellFormed (i : Instr) : Prop := i.fields.WellFormed

end Sys2Proof
end

