-- ==== Sys2Proof/Decode.lean ====
section
/-! DEFINITION. Decode and encode (spec 30_encoding.md R70 to R80), the 64-bit view of a word (10_state.md R22). -/

namespace Sys2Proof

open Sys2Proof.Machine

/-- What decode answers: "a closed tagged-union/enum over the five opcodes plus an explicit invalid variant" (R78). -/
inductive Decoded where
  /-- The word is an instruction. -/
  | instruction (i : Instr)
  /-- The word is rejected by name: its first character is none of the five opcodes; carries the character (R80). -/
  | invalidOpcode (c : CharCode)
deriving DecidableEq, Repr

/-- A register field (R75): the character's code less 48, with no check. -/
def decodeRegField (c : CharCode) : Int := (c.toNat : Int) - 48

/-- A byte field (R76): two hex digits, a character that is none counting as 0. -/
def decodeByteField (hi lo : CharCode) : Nat := 16 * digit hi + digit lo

/-- The fields of the word in a cell, from its eight slots and not its length (R73, R75, R76). Log 10 (UNVERIFIED). -/
def decodeFields (w : Cell) : Fields where
  r := decodeRegField (w.slot 1)
  s := decodeRegField (w.slot 2)
  t := decodeRegField (w.slot 3)
  address := decodeByteField (w.slot 4) (w.slot 5)
  immediate := decodeByteField (w.slot 6) (w.slot 7)

/-- Decode (R74, R77, R78, R80): a total function of the cell; the opcode character is compared exactly, and every other
character is rejected by name. -/
def decode (w : Cell) : Decoded :=
  let op := w.slot 0
  if op = 0x4C#8 then .instruction (.load (decodeFields w))
  else if op = 0x53#8 then .instruction (.store (decodeFields w))
  else if op = 0x41#8 then .instruction (.addInt (decodeFields w))
  else if op = 0x4A#8 then .instruction (.jump (decodeFields w))
  else if op = 0x48#8 then .instruction (.halt (decodeFields w))
  else .invalidOpcode op

/-- The opcode character of an instruction (R77). -/
def Instr.opcode : Instr → CharCode
  | .load _ => 0x4C#8
  | .store _ => 0x53#8
  | .addInt _ => 0x41#8
  | .jump _ => 0x4A#8
  | .halt _ => 0x48#8

/-- The character of a register field: the code 48 above it (R75). -/
def encodeRegField (i : Int) : CharCode := BitVec.ofInt 8 (i + 48)

/-- Encode: the word of an instruction, eight characters in the layout of R70. The digits are written upper case. -/
def encode (i : Instr) : Cell :=
  let f := i.fields
  ⟨[i.opcode, encodeRegField f.r, encodeRegField f.s, encodeRegField f.t,
    hexchar (f.address / 16), hexchar (f.address % 16), hexchar (f.immediate / 16), hexchar (f.immediate % 16)]⟩

/-- The cell of 8 characters whose 64-bit view is `v`: `ch[i] = v[63-8*i : 56-8*i]` (10_state.md R22). -/
def Cell.ofView (v : BitVec 64) : Cell :=
  ⟨(List.range 8).map fun i => v.extractLsb' (56 - 8 * i) 8⟩

/-- The 64-bit view of a cell's slots (10_state.md R22). -/
def Cell.view (c : Cell) : BitVec 64 :=
  BitVec.ofNat 64 ((List.range 8).foldl (fun v i => 256 * v + (c.slot i).toNat) 0)

/-- The word of an opcode-table row: `w` numbered as spec/opcode_table.json numbers it (bit 63 the first bit of the opcode
character, bit 0 the last of `immediate`; R70, R77), every bit at and above `nbits` zero. Log 9 (DEDUCED). -/
def tableWordCell (nbits w : Nat) : Cell := Cell.ofView (BitVec.ofNat 64 (w % 2 ^ nbits))

/-- The instruction the decoder reads from a table row's word, none where it refuses. -/
def decodeTableWord (nbits w : Nat) : Option Instr :=
  match decode (tableWordCell nbits w) with
  | .instruction i => some i
  | .invalidOpcode _ => none

end Sys2Proof
end

