-- ==== Sys2Proof/Config.lean ====
section
/-! DEFINITION. The parameters of the core (spec 00_scope.md R5). The fixed sizes of the table (16 registers, 256 cells,
8 characters, 32-bit program counter) stand as numerals where they are used. -/

namespace Sys2Proof.Config

/-- `PC_START`, the value of the program counter after reset: default 10 decimal (00_scope.md R5; 10_state.md R32).
The reset command takes it as an argument; this is the default. Log 5 (UNVERIFIED: an unaudited numeral of the source). -/
def pcStart : PcWord := 10#32

/-- What `J` compares (00_scope.md R5, `JUMP_COMPARE`). -/
inductive JumpCompare where
  /-- Character for character: same length, same characters (43_control_unit.md R146, the default). -/
  | cell
  /-- By value: `hexToInt` of the two cells (43_control_unit.md R146, the alternative left open to a model). -/
  | numeric
deriving DecidableEq, Repr

/-- `JUMP_COMPARE` at its default, `cell` (00_scope.md R5). Log 11 (UNVERIFIED: the spec's decision D8). -/
def jumpCompare : JumpCompare := .cell

end Sys2Proof.Config
end

