-- ==== Sys2Proof/Machine/Flags.lean ====
section
/-! DEFINITION. The core has no status flags and no condition codes (spec 10_state.md R36). The one condition it evaluates is the
comparison `J` makes at the time it executes (43_control_unit.md R146), which leaves nothing behind. -/

namespace Sys2Proof.Machine

/-- The condition of `J` on the compared register's cell and on `x[0]`, under the parameter `JUMP_COMPARE`
(43_control_unit.md R146; 00_scope.md R5). Log 11 (UNVERIFIED). -/
def jumpTaken (how : Config.JumpCompare) (c z : Cell) : Bool :=
  match how with
  | .cell => decide (c = z)
  | .numeric => decide (hexToInt c = hexToInt z)

end Sys2Proof.Machine
end

