-- ==== Sys2Proof/Machine/State.lean ====
section
/-! DEFINITION. The state of the machine (spec 10_state.md R20), its diagnostic events (60_exceptions.md R190), the reasons a
command is refused, and the state after reset (10_state.md R40; 70_reset_and_hazards.md R220). -/

namespace Sys2Proof.Machine

/-- The array an access was made to (60_exceptions.md R190, `space`). -/
inductive Space where
  | reg
  | mem
deriving DecidableEq, Repr

/-- The direction of an access (60_exceptions.md R190, `access`). -/
inductive Access where
  | read
  | write
deriving DecidableEq, Repr

/-- One diagnostic event (60_exceptions.md R190). Log 18 (UNVERIFIED). -/
inductive Diag where
  /-- Code 1: a bounds-checked access with an index outside the array (R192). -/
  | outOfRangeAddress (space : Space) (access : Access) (index : Int)
  /-- Code 2: the integer adder found a character that is no hex digit in its first, second operand (R193). -/
  | invalidHexDigit (aBad bBad : Bool)
  /-- Code 3: the ALU was called with a tag other than 0 or 1 (R194). -/
  | invalidOperationTag (kind : Int)
  /-- Code 4: the first character of the fetched cell is no opcode (R195). -/
  | invalidOpcode (c : CharCode)
  /-- Code 5: a float sum's rebiased exponent is outside 0 to 7 (R196). -/
  | unrepresentableFloat (e : Int)
  /-- Code 6: an integer sum of `2^32` or more (R197). Log 14 (UNVERIFIED). -/
  | cellOverflow (n : Nat)
  /-- Code 7: an `H` was executed; no error (R198). -/
  | haltNotice
deriving DecidableEq, Repr

/-- The phase of the fetch-decode-dispatch machine (10_state.md R35). -/
inductive Phase where
  | ready
  | fetched
  | decoded
  | executed
deriving DecidableEq, Repr

/-- Memory: the cells that do not hold `"00"`, by address. An address that is not listed reads as `"00"`, the reset content
(10_state.md R28). The one canonical form is `Memory.WellFormed`. Log 2 (DESIGN CHOICE). -/
structure Memory where
  entries : List (Nat × Cell)
deriving DecidableEq, Repr

/-- The canonical form of memory: addresses strictly rising and below 256 (20_memory.md R50), no entry equal to what an unlisted
address reads as, every cell at most 8 characters (10_state.md R24). -/
abbrev Memory.WellFormed (m : Memory) : Prop :=
  m.entries.Pairwise (fun p q => p.1 < q.1) ∧
    ∀ p ∈ m.entries, p.1 < 256 ∧ p.2 ≠ Cell.zeros ∧ p.2.WellFormed

/-- The complete state of the machine (10_state.md R20). -/
structure State where
  /-- The register file `x[0]` to `x[15]` (R25). -/
  x : Vector Cell 16
  /-- The attached memory `mem[0]` to `mem[255]` (R28). -/
  mem : Memory
  /-- The program counter (R29). -/
  pc : PcWord
  /-- The instruction register, the last-fetched word (R33). -/
  ir : Cell
  /-- The phase; Ready between steps (R35). -/
  phase : Phase
  /-- The event sequence of the last command, an output of the machine (45_host_ports.md R187). The model's own field: log 3 (DESIGN CHOICE). -/
  diag : List Diag
deriving DecidableEq, Repr

/-- The faults of this machine: none. "Every detected error is reported via a diagnostic channel" and execution goes on
(60_exceptions.md R191, R207; 44_instruction_cycle.md R160), so the type has no constructor. -/
inductive Fault
deriving DecidableEq, Repr

/-- Why a command is refused. No instruction is. -/
inductive Refusal where
  /-- Raised by an arm of `exec` whose instruction has no meaning yet; no arm of this model raises it. Safe. -/
  | notModelled (mnemonic : String)
  /-- Raised by the step and by every host command when the phase is not Ready: "A command is accepted only when the core is in
  phase Ready" (45_host_ports.md R180). Between commands the phase is always Ready (10_state.md R35). Safe. Log 4 (DEDUCED). -/
  | notReady (phase : Phase)
  /-- Raised by the memory write command given a string that no cell can hold (45_host_ports.md R184: "`v` must be a canonical
  cell"). Safe. Log 24 (DEDUCED). -/
  | nonCanonicalCell (v : Cell)
deriving DecidableEq, Repr

/-- Memory with every cell `"00"` (10_state.md R28). -/
def Memory.reset : Memory := ⟨[]⟩

/-- The state after a reset that is given `PC_START` (10_state.md R40; 70_reset_and_hazards.md R220). Log 6 (UNVERIFIED), log 21 (UNVERIFIED). -/
def State.resetAt (start : PcWord) : State where
  x := Vector.replicate 16 Cell.zeros
  mem := Memory.reset
  pc := start
  ir := Cell.empty
  phase := .ready
  diag := []

/-- The state after reset with `PC_START` at its default, 10 (10_state.md R32). Log 5 (UNVERIFIED). -/
def State.reset : State := State.resetAt Config.pcStart

/-- The number of an event (60_exceptions.md R190, column Code). -/
def Diag.code : Diag → Nat
  | .outOfRangeAddress _ _ _ => 1
  | .invalidHexDigit _ _ => 2
  | .invalidOperationTag _ => 3
  | .invalidOpcode _ => 4
  | .unrepresentableFloat _ => 5
  | .cellOverflow _ => 6
  | .haltNotice => 7

/-- Whether an event is an error (60_exceptions.md R190, last column): all but the halt notice. -/
def Diag.isError : Diag → Bool
  | .outOfRangeAddress _ _ _ => true
  | .invalidHexDigit _ _ => true
  | .invalidOperationTag _ => true
  | .invalidOpcode _ => true
  | .unrepresentableFloat _ => true
  | .cellOverflow _ => true
  | .haltNotice => false

end Sys2Proof.Machine
end

