-- ==== Sys2Proof/Machine/Ops.lean ====
section
/-! DEFINITION. The shared operations over the state: raising an event (spec 60_exceptions.md R191), the memory, and the four
bounds-checked access primitives (40_storage_ports.md R90 to R94). The machine has no exception entry and no return from one
(60_exceptions.md R202, R203): raising an event is all that an error does. -/

namespace Sys2Proof.Machine

/-- `raise` (00_scope.md R8; 60_exceptions.md R191): append one event to the current command's sequence and do nothing else. -/
def State.raise (d : Diag) (s : State) : State := { s with diag := s.diag ++ [d] }

/-- `diag <- []`: a command's own event sequence starts empty (44_instruction_cycle.md R160; 45_host_ports.md R180). -/
def State.beginCommand (s : State) : State := { s with diag := [] }

/-- `0 <= i and i <= 15`: the register a checked index selects (40_storage_ports.md R90, R91). -/
def regIndex (i : Int) : Option (Fin 16) :=
  if h : 0 ≤ i ∧ i ≤ 15 then some ⟨i.toNat, by omega⟩ else none

/-- `0 <= a and a <= 255`: the memory cell a checked address selects (40_storage_ports.md R92, R93). -/
def memIndex (a : Int) : Option Nat := if 0 ≤ a ∧ a ≤ 255 then some a.toNat else none

/-- The cell listed at an address, `"00"` where none is. -/
def readEntries : List (Nat × Cell) → Nat → Cell
  | [], _ => Cell.zeros
  | (b, v) :: rest, a => if a = b then v else readEntries rest a

/-- The list with one address rewritten, in the canonical form: an entry that would hold `"00"` is left out. -/
def writeEntries : List (Nat × Cell) → Nat → Cell → List (Nat × Cell)
  | [], a, v => if v = Cell.zeros then [] else [(a, v)]
  | (b, w) :: rest, a, v =>
    if a < b then (if v = Cell.zeros then (b, w) :: rest else (a, v) :: (b, w) :: rest)
    else if a = b then (if v = Cell.zeros then rest else (a, v) :: rest)
    else (b, w) :: writeEntries rest a v

/-- `mem[a]` (00_scope.md R8): the raw content of memory cell `a`. -/
def Memory.read (m : Memory) (a : Nat) : Cell := readEntries m.entries a

/-- `mem[a] <- v` (00_scope.md R8): the raw write of memory cell `a`. -/
def Memory.write (m : Memory) (a : Nat) (v : Cell) : Memory := ⟨writeEntries m.entries a v⟩

/-- `x[k] <- v` (00_scope.md R8): the raw write of register `k`; the whole cell is replaced. -/
def State.setReg (s : State) (k : Fin 16) (v : Cell) : State := { s with x := s.x.set k v }

/-- `mem[a] <- v` on the state. -/
def State.setMem (s : State) (a : Nat) (v : Cell) : State := { s with mem := s.mem.write a v }

/-- `RegRead(i)` (40_storage_ports.md R90): the cell read and the state after, which differs by the event at most. -/
def regRead (i : Int) (s : State) : Cell × State :=
  match regIndex i with
  | some k => (s.x[k], s)
  | none => (Cell.zeros, s.raise (.outOfRangeAddress .reg .read i))

/-- `RegWrite(i, v)` (40_storage_ports.md R91). -/
def regWrite (i : Int) (v : Cell) (s : State) : State :=
  match regIndex i with
  | some k => s.setReg k v
  | none => s.raise (.outOfRangeAddress .reg .write i)

/-- `MemRead(a, 1)` (40_storage_ports.md R92). -/
def memRead (a : Int) (s : State) : Cell × State :=
  match memIndex a with
  | some k => (s.mem.read k, s)
  | none => (Cell.zeros, s.raise (.outOfRangeAddress .mem .read a))

/-- `MemWrite(a, 1, v)` (40_storage_ports.md R93). -/
def memWrite (a : Int) (v : Cell) (s : State) : State :=
  match memIndex a with
  | some k => s.setMem k v
  | none => s.raise (.outOfRangeAddress .mem .write a)

end Sys2Proof.Machine
end

