-- ==== Sys2Proof/Machine/ControlUnit.lean ====
section
/-! DEFINITION. The control unit's operations, each "a direct pass-through" that adds no check of its own (spec
43_control_unit.md R144): what a refused access returns is passed on (log 15 (UNVERIFIED)). -/

namespace Sys2Proof.Machine

/-- `load(reg, memAddr)`: register <- memory (R140). -/
def cuLoad (reg memAddr : Int) (s : State) : State :=
  let (v, s1) := memRead memAddr s
  regWrite reg v s1

/-- `store(reg, memAddr)`: memory <- register (R141). -/
def cuStore (reg memAddr : Int) (s : State) : State :=
  let (v, s1) := regRead reg s
  memWrite memAddr v s1

/-- `move(src, dst)`: register[dst] <- register[src] (R142). -/
def cuMove (src dst : Int) (s : State) : State :=
  let (v, s1) := regRead src s
  regWrite dst v s1

/-- `jump(condReg, programCounter)` (R146): compare with register 0; when equal, `pc` becomes the number in the register. A cell's
number is below `2^32` (41_hex_codec_integer_alu.md R103), so 32 bits hold it. -/
def cuJump (how : Config.JumpCompare) (condReg : Int) (s : State) : State :=
  let (c, s1) := regRead condReg s
  let (z, s2) := regRead 0 s1
  if jumpTaken how c z then { s2 with pc := BitVec.ofNat 32 (hexToInt c) } else s2

/-- `halt()`: a termination notice and no state change (R148). -/
def cuHalt (s : State) : State := s.raise .haltNotice

/-- The arm for a word that is no instruction (44_instruction_cycle.md R165). -/
def invalidInstruction (c : CharCode) (s : State) : State := s.raise (.invalidOpcode c)

end Sys2Proof.Machine
end

