-- ==== Sys2Proof/Machine/Control.lean ====
section
/-! DEFINITION. The meanings of `J` and `H` (spec 43_control_unit.md R146, R148). `pc` was advanced by fetch. -/

namespace Sys2Proof.Machine

/-- `J`: if `x[R] = x[0]` then `pc <- hexToInt(x[R])`; the `address` field plays no part (R146). -/
def execJump (f : Fields) (s : State) : Host.Outcome State Fault Refusal :=
  .next (cuJump Config.jumpCompare f.r s)

/-- `H`: the halt notice; nothing records it and nothing stops (R148). Every field is ignored (30_encoding.md R79). -/
def execHalt (_f : Fields) (s : State) : Host.Outcome State Fault Refusal :=
  .next (cuHalt s)

end Sys2Proof.Machine
end

