-- ==== Sys2Proof/Machine/Float.lean ====
section
/-! DEFINITION. The 8-bit float codec (spec 42_float_codec_alu.md R120 to R128). A real of this core is an integer multiple of
`1/256` (R124; 00_scope.md R7), so a decoded value and a sum are held as the integer `k` of `k/256`. Log 22 (DEDUCED). -/

namespace Sys2Proof.Machine

/-- The sign field, `b[7]` (R120). -/
def fsign (b : Byte) : Nat := b.toNat / 128

/-- The exponent field, `b[6:4]`, biased by 4 (R120). -/
def fexponent (b : Byte) : Nat := b.toNat / 16 % 8

/-- The mantissa field, `b[3:0]`, the whole fraction in sixteenths: no hidden bit (R120). -/
def fmantissa (b : Byte) : Nat := b.toNat % 16

/-- `sign * 128 + e * 16 + m`, the packing (R120, R126). -/
def fpack (sign e m : Nat) : Byte := BitVec.ofNat 8 (sign * 128 + e * 16 + m)

/-- A byte is normalised when its mantissa is 8 or more (R123). -/
def fnormalised (b : Byte) : Bool := 8 ≤ fmantissa b

/-- `fbyte(c) = hexToInt(c) mod 256`, the operand fetch; no validity check (R121). Log 16 (UNVERIFIED). -/
def fbyte (c : Cell) : Byte := BitVec.ofNat 8 (hexToInt c % 256)

/-- The real that a byte stands for, by the formula of R122: `(-1)^sign * 2^(exponent-4) * mantissa/16`. -/
def fdecode (b : Byte) : Rat := (-1) ^ fsign b * (2 : Rat) ^ ((fexponent b : Int) - 4) * ((fmantissa b : Rat) / 16)

/-- `fval`, the integer form of the decoder: the byte's value is `fval b / 256` (R122). -/
def fval (b : Byte) : Int := (-1) ^ fsign b * ((fmantissa b * 2 ^ fexponent b : Nat) : Int)

/-- A magnitude `num / 2^scale` under normalisation, with the exponent taken out of it so far: what the encoder's two loops
work on. Halving and doubling it are exact (R126). -/
structure Magnitude where
  num : Nat
  scale : Nat
  exp : Int
deriving DecidableEq, Repr

/-- `mag >= 1.0`. -/
def Magnitude.atLeastOne (m : Magnitude) : Bool := 2 ^ m.scale ≤ m.num

/-- `mag < 0.5`. -/
def Magnitude.belowHalf (m : Magnitude) : Bool := m.num * 2 < 2 ^ m.scale

/-- `while mag >= 1.0 do mag <- mag / 2 ; exp <- exp + 1` (R126), with a bound on the passes. -/
def halvingLoop : Nat → Magnitude → Magnitude
  | 0, m => m
  | k + 1, m => if m.atLeastOne then halvingLoop k { m with scale := m.scale + 1, exp := m.exp + 1 } else m

/-- `while mag < 0.5 do mag <- mag * 2 ; exp <- exp - 1` (R126), with a bound on the passes. -/
def doublingLoop : Nat → Magnitude → Magnitude
  | 0, m => m
  | k + 1, m => if m.belowHalf then doublingLoop k { m with num := m.num * 2, exp := m.exp - 1 } else m

/-- The normaliser on the magnitude `n / 256`: the two loops of R126. "In this core it runs at most 4 halvings or 7 doublings"
(70_reset_and_hazards.md R229), so a bound of 16 passes never cuts a loop. Log 22 (DEDUCED). -/
def normalise (n : Nat) : Magnitude := doublingLoop 16 (halvingLoop 16 ⟨n, 8, 0⟩)

/-- `fencode` of the non-zero real `k/256` (R126): the byte, and the rebiased exponent of `UnrepresentableFloat` where the value
cannot be represented. Never called with zero (R130). -/
def fencode (k : Int) : Byte × Option Int :=
  let sign := if k < 0 then 1 else 0
  let m := normalise k.natAbs
  let e := m.exp + 4
  if e < 0 ∨ e > 7 then (0x00#8, some e)
  else (fpack sign e.toNat (m.num * 16 / 2 ^ m.scale), none)

/-- `fencodeK`, the same function with a priority encoder and a shift (R127). -/
def fencodeK (k : Int) : Byte × Option Int :=
  let sign := if k < 0 then 1 else 0
  let n := k.natAbs
  let p := n.log2
  if p < 3 ∨ p > 10 then (0x00#8, some ((p : Int) - 3))
  else (fpack sign (p - 3) (n >>> (p - 3)), none)

end Sys2Proof.Machine
end

