-- ==== Sys2Proof/Machine/Alu.lean ====
section
/-! DEFINITION. The ALU: the integer adder (spec 41_hex_codec_integer_alu.md R107, R108), the float adder
(42_float_codec_alu.md R130) and the tagged entry (R131). -/

namespace Sys2Proof.Machine

/-- `addIntegers(srcA, srcB, dst)` (R107): both reads, then validation, then the exact sum, then the write; no write after a failed
validation (log 13 (UNVERIFIED)) or a sum that no cell can hold (R108; log 14 (UNVERIFIED)). -/
def addIntegers (srcA srcB dst : Int) (s : State) : State :=
  let (a, s1) := regRead srcA s
  let (b, s2) := regRead srcB s1
  if !isValidHex a || !isValidHex b then s2.raise (.invalidHexDigit (!isValidHex a) (!isValidHex b))
  else
    let n := hexToInt a + hexToInt b
    if 2 ^ 32 ≤ n then s2.raise (.cellOverflow n) else regWrite dst (intToHex n) s2

/-- The event of an encoder's answer: `UnrepresentableFloat` with its exponent, or none (R126). -/
def raiseUnrepresentable (e : Option Int) (s : State) : State :=
  match e with
  | some e => s.raise (.unrepresentableFloat e)
  | none => s

/-- `addFloats(srcA, srcB, dst)` (R130): the exact sum as the integer `k` of `k/256` (R124); a zero sum writes `"00"` and bypasses
the encoder; an unrepresentable sum raises its event and writes `"00"`. -/
def addFloats (srcA srcB dst : Int) (s : State) : State :=
  let (a, s1) := regRead srcA s
  let (b, s2) := regRead srcB s1
  let k := fval (fbyte a) + fval (fbyte b)
  if k = 0 then regWrite dst Cell.zeros s2
  else
    let (byte, e) := fencode k
    regWrite dst (byteToHex2 byte) (raiseUnrepresentable e s2)

/-- `aluExecute(kind, a, b, dst)` (R131): tag 0 the integer add, tag 1 the float add, any other tag an event and no change. -/
def aluExecute (kind a b dst : Int) (s : State) : State :=
  if kind = 0 then addIntegers a b dst s
  else if kind = 1 then addFloats a b dst s
  else s.raise (.invalidOperationTag kind)

end Sys2Proof.Machine
end

