-- ==== Sys2Proof/Machine/Integer.lean ====
section
/-! DEFINITION. The meaning of `A` (spec 41_hex_codec_integer_alu.md R109). `pc` was advanced by fetch. -/

namespace Sys2Proof.Machine

/-- `A`: `x[T] <- intToHex(hexToInt(x[R]) + hexToInt(x[S]))` (R109). -/
def execAddInt (f : Fields) (s : State) : Host.Outcome State Fault Refusal :=
  .next (addIntegers f.r f.s f.t s)

end Sys2Proof.Machine
end

