-- ==== Sys2Proof/Machine/Operands.lean ====
section
/-! DEFINITION. The operand forms. There are two: a register named by a decoded index (spec 30_encoding.md R75), checked at the
access, and the one addressing mode, absolute (43_control_unit.md R145). -/

namespace Sys2Proof.Machine

/-- `EA = address`: the effective address of `L` and `S` (43_control_unit.md R145). -/
def effectiveAddress (f : Fields) : Int := (f.address : Int)

/-- The value a register operand supplies: the register, or the default `"00"` of a refused read (40_storage_ports.md R90, R94). -/
def regOperand (i : Int) (s : State) : Cell := (regRead i s).1

/-- The events a register operand's read raises (40_storage_ports.md R90). -/
def regReadEvents (i : Int) : List Diag :=
  match regIndex i with
  | some _ => []
  | none => [.outOfRangeAddress .reg .read i]

/-- The events a register result's write raises (40_storage_ports.md R91). -/
def regWriteEvents (i : Int) : List Diag :=
  match regIndex i with
  | some _ => []
  | none => [.outOfRangeAddress .reg .write i]

end Sys2Proof.Machine
end

