-- ==== Sys2Proof/Machine/LoadStore.lean ====
section
/-! DEFINITION. The meanings of `L` and `S` (spec 43_control_unit.md R140, R141). `pc` was advanced by fetch. -/

namespace Sys2Proof.Machine

/-- `L`: `x[R] <- mem[address]` (R140). -/
def execLoad (f : Fields) (s : State) : Host.Outcome State Fault Refusal :=
  .next (cuLoad f.r (effectiveAddress f) s)

/-- `S`: `mem[address] <- x[R]` (R141). -/
def execStore (f : Fields) (s : State) : Host.Outcome State Fault Refusal :=
  .next (cuStore f.r (effectiveAddress f) s)

end Sys2Proof.Machine
end

