-- ==== Sys2Proof/Machine/Dispatch.lean ====
section
/-! DEFINITION. The execute part of a step: one arm per instruction (spec 44_instruction_cycle.md R163). -/

namespace Sys2Proof.Machine

def exec (i : Instr) (s : State) : Host.Outcome State Fault Refusal :=
  match i with
  | .load f => Sys2Proof.Machine.execLoad f s
  | .store f => Sys2Proof.Machine.execStore f s
  | .addInt f => Sys2Proof.Machine.execAddInt f s
  | .jump f => Sys2Proof.Machine.execJump f s
  | .halt f => Sys2Proof.Machine.execHalt f s

end Sys2Proof.Machine
end

