-- ==== Sys2Proof/Machine/Cycle.lean ====
section
/-! DEFINITION. The parts of one step, each passing to the next phase (spec 44_instruction_cycle.md R160 to R165). -/

namespace Sys2Proof.Machine

/-- Ready to Fetched (R161): `ir <- MemRead(pc, 1)`, then `pc <- (pc + 1) mod 2^32`, whether or not `pc` was in range. -/
def fetch (s : State) : State :=
  let (w, s1) := memRead (s.pc.toNat : Int) s
  { s1 with ir := w, pc := s.pc + 1#32, phase := .fetched }

/-- Fetched to Decoded (R162): decode raises nothing and changes no state but the phase. -/
def decodePhase (s : State) : State := { s with phase := .decoded }

/-- The execute part (R163): the arm of the decoded instruction, or the invalid opcode's (R165). -/
def executeDecoded (d : Decoded) (s : State) : Host.Outcome State Fault Refusal :=
  match d with
  | .instruction i => exec i s
  | .invalidOpcode c => .next (invalidInstruction c s)

/-- Decoded to Executed (R164). -/
def executedPhase (s : State) : State := { s with phase := .executed }

/-- Executed to Ready (R164). -/
def readyPhase (s : State) : State := { s with phase := .ready }

/-- The state in which the execute part of a step from `s` runs: events emptied, the word fetched, `pc` advanced, decoded. -/
def stepEntry (s : State) : State := decodePhase (fetch s.beginCommand)

/-- The end of a step, from what its execute part answers. -/
def stepExit (o : Host.Outcome State Fault Refusal) : Host.Outcome State Fault Refusal :=
  match o with
  | .next t => .next (readyPhase (executedPhase t))
  | .fault r => .fault r
  | .refused r => .refused r

/-- `runNextStep` (R160), accepted only in Ready (45_host_ports.md R180; log 4 (DEDUCED)). -/
def runNextStep (s : State) : Host.Outcome State Fault Refusal :=
  if s.phase = .ready then stepExit (executeDecoded (decode (stepEntry s).ir) (stepEntry s))
  else .refused (.notReady s.phase)

/-- Where the next fetch can find a placed word: `pc` itself, or the default `PC_START` when `pc` is beyond memory. Log 26 (DESIGN CHOICE). -/
def fetchSlot (s : State) : PcWord := if s.pc.toNat < 256 then s.pc else Config.pcStart

/-- The state with a cell placed where the next fetch reads: the memory write port at that address (45_host_ports.md R184), and
`pc` and the phase as that fetch needs them. Log 26 (DESIGN CHOICE). -/
def placeWord (s : State) (w : Cell) : State :=
  { s with mem := s.mem.write (fetchSlot s).toNat w, pc := fetchSlot s, phase := .ready }

end Sys2Proof.Machine
end

