-- ==== Sys2Proof/Machine/Step.lean ====
section
/-! DEFINITION. The step of the machine: one `runNextStep` (spec 00_scope.md R9; 44_instruction_cycle.md R160). -/

namespace Sys2Proof.Machine

/-- One step is one call of `runNextStep`, "the only externally invoked entry point for advancing the machine by one
instruction" (R160). -/
def step (s : State) : Host.Outcome State Fault Refusal := runNextStep s

/-- The state with a table row's word stored, as one 8-character cell, where the next step fetches. Log 9 (DEDUCED), log 26 (DESIGN CHOICE). -/
def State.withFetchWord (s : State) (nbits w : Nat) : State := placeWord s (tableWordCell nbits w)

end Sys2Proof.Machine
end

