-- ==== Sys2Proof/Machine/Ports.lean ====
section
/-! DEFINITION. The host ports (spec 45_host_ports.md R180 to R189). One command at a time, accepted only in Ready, run to
completion, answered with the value the port carries out and with its own events (`diag` of the state after). Log 25 (DEDUCED). -/

namespace Sys2Proof.Machine

/-- A command of the host, one per port (45_host_ports.md R189). -/
inductive Command where
  /-- `reset(PC_START)` (70_reset_and_hazards.md R220). -/
  | reset (start : PcWord)
  /-- `runNextStep` (44_instruction_cycle.md R160). -/
  | runNextStep
  /-- `getProgramCounter` (R181). -/
  | getProgramCounter
  /-- `setProgramCounter` (R182). -/
  | setProgramCounter (v : PcWord)
  /-- `getRegister` (R185). -/
  | getRegister (i : Int)
  /-- Memory read pass-through (R183). -/
  | memoryRead (a : Int)
  /-- Memory write pass-through (R184). -/
  | memoryWrite (a : Int) (v : Cell)
  /-- `move` on the control-unit operation port (R186; log 19 (UNVERIFIED)). -/
  | move (src dst : Int)
  /-- `aluExecute` on the control-unit operation port (R186; log 19 (UNVERIFIED)). -/
  | aluExecute (kind a b dst : Int)
deriving DecidableEq, Repr

/-- The value a port carries out (45_host_ports.md R189). -/
inductive Reply where
  /-- Nothing but events. -/
  | none
  /-- The program counter (R181). -/
  | counter (v : PcWord)
  /-- A cell (R183, R185). -/
  | cell (v : Cell)
deriving DecidableEq, Repr

/-- The reply of a command accepted in the state `s` (R181, R183, R185). -/
def replyTo (c : Command) (s : State) : Reply :=
  match c with
  | .getProgramCounter => .counter s.pc
  | .getRegister i => .cell (regRead i s).1
  | .memoryRead a => .cell (memRead a s).1
  | .reset _ => .none
  | .runNextStep => .none
  | .setProgramCounter _ => .none
  | .memoryWrite _ _ => .none
  | .move _ _ => .none
  | .aluExecute _ _ _ _ => .none

/-- The effect of a command accepted in Ready, from a state whose events were emptied. -/
def commandEffect (c : Command) (s : State) : Host.Outcome State Fault Refusal :=
  match c with
  | .reset start => .next (State.resetAt start)
  | .runNextStep => step s
  | .getProgramCounter => .next s
  | .setProgramCounter v => .next { s with pc := v }
  | .getRegister i => .next (regRead i s).2
  | .memoryRead a => .next (memRead a s).2
  | .memoryWrite a v => if v.WellFormed then .next (memWrite a v s) else .refused (.nonCanonicalCell v)
  | .move src dst => .next (cuMove src dst s)
  | .aluExecute kind a b dst => .next (aluExecute kind a b dst s)

/-- One transaction (R180): refused unless the phase is Ready; otherwise the command's effect with its own events. -/
def perform (c : Command) (s : State) : Host.Outcome State Fault Refusal :=
  if s.phase = .ready then commandEffect c s.beginCommand else .refused (.notReady s.phase)

/-- A sequence of commands, each seeing the effect of all earlier ones (R180); it stops at a refused command. -/
def performAll : List Command → State → Host.Outcome State Fault Refusal
  | [], s => .next s
  | c :: rest, s =>
    match perform c s with
    | .next t => performAll rest t
    | .fault r => .fault r
    | .refused r => .refused r

/-- The memory writes of `Memory.bulkLoad` from address `a` upward: one token per cell (R184). -/
def loadCommands (a : Nat) : List Cell → List Command
  | [] => []
  | t :: rest => .memoryWrite (a : Int) t :: loadCommands (a + 1) rest

/-- `Memory.bulkLoad`, as it acts on the core: `MemWrite(0, 1, t0)`, `MemWrite(1, 1, t1)`, ... (R184). Log 28 (DEDUCED). -/
def bulkLoad (tokens : List Cell) (s : State) : Host.Outcome State Fault Refusal :=
  performAll (loadCommands 0 tokens) s

end Sys2Proof.Machine
end

