-- ==== Sys2Proof/Safety.lean ====
section
/-! DEFINITION. What a legal state is, and how a driver reads a run: the end of a run (spec 44_instruction_cycle.md R167) and the
two conditions a driver may compute from the events (60_exceptions.md R207). -/

namespace Sys2Proof.Machine

/-- A legal state between commands: every cell of the register file, of memory and of `ir` holds at most 8 characters
(10_state.md R21, R24), memory has its canonical form, and the phase is Ready (R35). -/
abbrev State.WellFormed (s : State) : Prop :=
  (∀ k : Fin 16, s.x[k].WellFormed) ∧ s.mem.WellFormed ∧ s.ir.WellFormed ∧ s.phase = .ready

/-- The cell a step from `s` fetches: the cell at `pc`, or `"00"` beyond memory (44_instruction_cycle.md R161). -/
def fetchedCell (s : State) : Cell := if s.pc.toNat < 256 then s.mem.read s.pc.toNat else Cell.zeros

/-- The events a step's fetch raises (44_instruction_cycle.md R161). -/
def fetchEvents (s : State) : List Diag :=
  if s.pc.toNat < 256 then [] else [.outOfRangeAddress .mem .read (s.pc.toNat : Int)]

/-- The last command returned a halt notice: the driver's sign that the run ended (44_instruction_cycle.md R167; 60_exceptions.md R207). -/
def State.haltNoticed (s : State) : Bool := s.diag.contains .haltNotice

/-- The last command returned an error event: what a driver may call Faulted (60_exceptions.md R207). -/
def State.errorNoticed (s : State) : Bool := s.diag.any Diag.isError

/-- The driver of 44_instruction_cycle.md R167: at most `k` steps, ending after the first whose events hold the halt notice. The
definition is the driver's, "not the hardware's: the hardware would go on". Log 20 (UNVERIFIED). -/
def drive : Nat → State → Host.Outcome State Fault Refusal
  | 0, s => .next s
  | k + 1, s =>
    match step s with
    | .next t => if t.haltNoticed then .next t else drive k t
    | .fault r => .fault r
    | .refused r => .refused r

/-- A step that ran cleanly: it answered a next state with no error event. -/
def stepsCleanly (s : State) : Bool :=
  match step s with
  | .next t => !t.errorNoticed
  | .fault _ => false
  | .refused _ => false

end Sys2Proof.Machine
end

