-- ==== Sys2Proof/Certificates/Slice0/Obligations.lean ====
section
/-! DEFINITION. The statements about the machine, for the provers. -/

open Sys2Proof Sys2Proof.Machine

/-! ### Encoding and decoding (30_encoding.md) -/

/-- Decoding the encoding of a well-formed instruction gives it back, for all five instructions and every value of every field
(R70, R74 to R77). The encoder is the model's own. -/
def Obligations.DecodeInvertsEncode : Prop :=
  ∀ i : Instr, i.WellFormed → decode (encode i) = .instruction i

/-- Whatever cell is decoded, the fields are ones the encoding admits (R75: -48..207; R76: 0..255). -/
def Obligations.DecodedInstructionIsWellFormed : Prop :=
  ∀ (w : Cell) (i : Instr), decode w = .instruction i → i.WellFormed

/-- The first character alone decides whether a cell is an instruction and which one, exactly and with case; every other character is
rejected as itself (R74, R77, R78, R80). -/
def Obligations.OpcodeCharacterDecides : Prop :=
  ∀ w : Cell,
    (∀ i, decode w = .instruction i → i.opcode = w.slot 0 ∧ i.fields = decodeFields w) ∧
    (∀ ch, decode w = .invalidOpcode ch → ch = w.slot 0) ∧
    ((∃ i, decode w = .instruction i) ↔ w.slot 0 ∈ (Cell.ofString "LSAJH").chars)

/-- The 64-bit word of the opcode table: a word decodes exactly when its top byte is an opcode's, and each field is read from the
bits the table gives it (R22, R70, R75 to R77). The numbering is the table's; how it is laid out in a cell is log 9 (DEDUCED). -/
def Obligations.TableWordFieldPlaces : Prop :=
  ∀ w : Nat, w < 2 ^ 64 →
    ((∃ i, decodeTableWord 64 w = some i) ↔ w / 2 ^ 56 ∈ [0x4C, 0x53, 0x41, 0x4A, 0x48]) ∧
    ∀ i, decodeTableWord 64 w = some i →
      i.opcode.toNat = w / 2 ^ 56 ∧
      i.fields.r = ((w / 2 ^ 48 % 256 : Nat) : Int) - 48 ∧
      i.fields.s = ((w / 2 ^ 40 % 256 : Nat) : Int) - 48 ∧
      i.fields.t = ((w / 2 ^ 32 % 256 : Nat) : Int) - 48 ∧
      i.fields.address = 16 * digit (BitVec.ofNat 8 (w / 2 ^ 24)) + digit (BitVec.ofNat 8 (w / 2 ^ 16)) ∧
      i.fields.immediate = 16 * digit (BitVec.ofNat 8 (w / 2 ^ 8)) + digit (BitVec.ofNat 8 w)

/-- Words written out bit by bit from 95_test_vectors.md decode as that file's tables say, one of each instruction and one invalid. -/
def Obligations.WrittenOutWordsDecode : Prop :=
  decodeTableWord 64 0x4C31303031303030 = some (.load ⟨1, 0, 0, 16, 0⟩) ∧
  decodeTableWord 64 0x5333303032323030 = some (.store ⟨3, 0, 0, 34, 0⟩) ∧
  decodeTableWord 64 0x4132333430303030 = some (.addInt ⟨2, 3, 4, 0, 0⟩) ∧
  decodeTableWord 64 0x4A31303030303030 = some (.jump ⟨1, 0, 0, 0, 0⟩) ∧
  decodeTableWord 64 0x4830303030303030 = some (.halt ⟨0, 0, 0, 0, 0⟩) ∧
  decodeTableWord 64 0x6C31303031303030 = none

/-- Fields an instruction does not use are ignored, without any check or event (R79). -/
def Obligations.UnusedFieldsAreIgnored : Prop :=
  ∀ (f g : Fields) (s : State),
    (f.r = g.r → f.address = g.address → exec (.load f) s = exec (.load g) s ∧ exec (.store f) s = exec (.store g) s) ∧
    (f.r = g.r → f.s = g.s → f.t = g.t → exec (.addInt f) s = exec (.addInt g) s) ∧
    (f.r = g.r → exec (.jump f) s = exec (.jump g) s) ∧
    exec (.halt f) s = exec (.halt g) s

/-! ### The hex codec (41_hex_codec_integer_alu.md R100 to R106) -/

/-- The character classes, the digit values and the validity of a cell: valid exactly when every occupied slot holds a hex character,
so the empty cell is valid (R100, R101, R102). The codes of the characters are the spec's decision D1 (log 8 (UNVERIFIED)). -/
def Obligations.HexCharacterClasses : Prop :=
  (Cell.ofString "0123456789ABCDEF").chars.map digit = List.range 16 ∧
  (Cell.ofString "0123456789abcdef").chars.map digit = List.range 16 ∧
  (∀ c : CharCode,
    (isHexChar c = true ↔ c ∈ (Cell.ofString "0123456789ABCDEFabcdef").chars) ∧ (isHexChar c = false → digit c = 0)) ∧
  (∀ c : Cell, isValidHex c = true ↔ ∀ i : Nat, i < c.len → isHexChar (c.slot i) = true) ∧
  isValidHex (Cell.ofString "") = true

/-- `hexToInt` is the positional sum of R103 with a bad character counting as 0 in its place (the spec's decision D9, log 12 (UNVERIFIED)), and is
below `16^n`. -/
def Obligations.HexToIntIsPositional : Prop :=
  ∀ c : Cell,
    hexToInt c = ((List.range c.len).map fun i => digit (c.slot i) * 16 ^ (c.len - 1 - i)).sum ∧ hexToInt c < 16 ^ c.len

/-- `intToHex` writes the shortest upper-case numeral, most significant digit first, `"0"` for 0, of 1 to 8 characters (R104). -/
def Obligations.IntToHexIsShortestNumeral : Prop :=
  (∀ d : Nat, (d ≤ 9 → (hexchar d).toNat = 0x30 + d) ∧ (10 ≤ d → d ≤ 15 → (hexchar d).toNat = 0x41 + d - 10)) ∧
  intToHex 0 = Cell.ofString "0" ∧
  ∀ n : Nat, n < 2 ^ 32 →
    1 ≤ (intToHex n).len ∧ (intToHex n).len ≤ 8 ∧ n < 16 ^ (intToHex n).len ∧
    (∀ k : Nat, 1 ≤ k → n < 16 ^ k → (intToHex n).len ≤ k) ∧
    ∀ i : Nat, i < (intToHex n).len → (intToHex n).slot i = hexchar (n / 16 ^ ((intToHex n).len - 1 - i) % 16)

/-- Every valid cell keeps its number through `intToHex`, and keeps its characters exactly when it is not empty, has no leading zero
and no lower-case letter (R106). -/
def Obligations.HexRoundTrip : Prop :=
  ∀ c : Cell, c.WellFormed → isValidHex c = true →
    hexToInt (intToHex (hexToInt c)) = hexToInt c ∧
    (intToHex (hexToInt c) = c ↔
      c.chars ≠ [] ∧ (c.slot 0 = 0x30#8 → c.len = 1) ∧ ∀ ch ∈ c.chars, ¬ (0x61 ≤ ch.toNat ∧ ch.toNat ≤ 0x66))

/-! ### Storage (40_storage_ports.md R90 to R94; 10_state.md R21; 20_memory.md) -/

/-- `RegRead`: in range the register and no change; out of range `"00"` and the event alone (R90). The two shared helpers the other
statements use, the operand's value and its events, are this read's. -/
def Obligations.RegReadIsBoundsChecked : Prop :=
  ∀ (s : State),
    (∀ k : Fin 16, regRead (k.val : Int) s = (s.x[k], s)) ∧
    (∀ i : Int, i < 0 ∨ 16 ≤ i → regRead i s = (Cell.ofString "00", s.raise (.outOfRangeAddress .reg .read i))) ∧
    ∀ i : Int, regOperand i s = (regRead i s).1 ∧ (regRead i s).2 = { s with diag := s.diag ++ regReadEvents i }

/-- `RegWrite`: in range that register holds the whole value and nothing else changes; out of range the event alone (R91). -/
def Obligations.RegWriteIsBoundsChecked : Prop :=
  ∀ (s : State) (v : Cell),
    (∀ k : Fin 16, ∃ t, regWrite (k.val : Int) v s = t ∧ (∀ j : Fin 16, t.x[j] = if j = k then v else s.x[j]) ∧
      t = { s with x := t.x }) ∧
    (∀ i : Int, i < 0 ∨ 16 ≤ i → regWrite i v s = s.raise (.outOfRangeAddress .reg .write i)) ∧
    ∀ i : Int, (regWrite i v s).diag = s.diag ++ regWriteEvents i

/-- `MemRead`: in range the cell and no change; out of range `"00"` and the event alone (R92). -/
def Obligations.MemReadIsBoundsChecked : Prop :=
  ∀ (s : State),
    (∀ a : Nat, a < 256 → memRead (a : Int) s = (s.mem.read a, s)) ∧
    ∀ a : Int, a < 0 ∨ 256 ≤ a → memRead a s = (Cell.ofString "00", s.raise (.outOfRangeAddress .mem .read a))

/-- `MemWrite`: in range that cell holds the whole value, every other cell reads as before and nothing else changes; out of range
the event alone (R93). Memory is in its canonical form (the invariant of StepKeepsWellFormed). -/
def Obligations.MemWriteIsBoundsChecked : Prop :=
  ∀ (s : State) (v : Cell), s.mem.WellFormed →
    (∀ a : Nat, a < 256 → ∃ t, memWrite (a : Int) v s = t ∧ (∀ b : Nat, t.mem.read b = if b = a then v else s.mem.read b) ∧
      t = { s with mem := t.mem }) ∧
    ∀ a : Int, a < 0 ∨ 256 ≤ a → memWrite a v s = s.raise (.outOfRangeAddress .mem .write a)

/-- Two memories in canonical form that read alike at every address are the same memory: the form is one (20_memory.md R50, R52;
the representation is the model's, log 2 (DESIGN CHOICE)). -/
def Obligations.CanonicalMemoryIsUnique : Prop :=
  ∀ m n : Memory, m.WellFormed → n.WellFormed → (∀ a : Nat, m.read a = n.read a) → m = n

/-- Cell equality is equality of the length and of all eight slots, and every slot at or above the length holds `0x00` (R21; a cell
held as its string is the model's form, log 1 (DESIGN CHOICE)). -/
def Obligations.CellEqualityIsLengthAndSlots : Prop :=
  ∀ c d : Cell, c.WellFormed → d.WellFormed →
    (c = d ↔ c.len = d.len ∧ ∀ i : Nat, i < 8 → c.slot i = d.slot i) ∧ ∀ i : Nat, c.len ≤ i → c.slot i = 0x00#8

/-! ### The five instructions -/

/-- `L` completes on every word: `x[R]` becomes `mem[address]`, whole; out of range nothing is written and one event is raised; every
other register, all of memory, `pc`, `ir` and the phase are unchanged (43_control_unit.md R140). -/
def Obligations.LoadCopiesTheCell : Prop :=
  ∀ (f : Fields) (s : State), f.WellFormed →
    ∃ t, exec (.load f) s = .next t ∧
      (∀ k : Fin 16, t.x[k] = if (k.val : Int) = f.r then s.mem.read f.address else s.x[k]) ∧
      t.mem = s.mem ∧ t.pc = s.pc ∧ t.ir = s.ir ∧ t.phase = s.phase ∧
      t.diag = s.diag ++ (if 0 ≤ f.r ∧ f.r ≤ 15 then [] else [.outOfRangeAddress .reg .write f.r])

/-- `S` completes on every word: `mem[address]` becomes `x[R]`, whole, or `"00"` with an event when `R` is out of range; every other
cell of memory, every register, `pc`, `ir` and the phase are unchanged (43_control_unit.md R141, whose out-of-range clause the spec
derives from R144 and R90; log 15 (UNVERIFIED)). -/
def Obligations.StoreCopiesTheCell : Prop :=
  ∀ (f : Fields) (s : State), f.WellFormed → s.mem.WellFormed →
    ∃ t, exec (.store f) s = .next t ∧
      (∀ k : Fin 16, (k.val : Int) = f.r → t.mem.read f.address = s.x[k]) ∧
      (f.r < 0 ∨ 16 ≤ f.r → t.mem.read f.address = Cell.ofString "00") ∧
      (∀ b : Nat, (b : Int) ≠ effectiveAddress f → t.mem.read b = s.mem.read b) ∧
      t.x = s.x ∧ t.pc = s.pc ∧ t.ir = s.ir ∧ t.phase = s.phase ∧
      t.diag = s.diag ++ (if 0 ≤ f.r ∧ f.r ≤ 15 then [] else [.outOfRangeAddress .reg .read f.r])

/-- `A` completes on every word: both operands are read (out of range as `"00"`); when both are hexadecimal and the exact sum is
below `2^32`, `x[T]` becomes its shortest numeral; otherwise nothing is written. Every other register, all of memory, `pc`, `ir` and
the phase are unchanged; the events are those of the reads, then of the failed check or of the write (41_hex_codec_integer_alu.md
R107 to R109; the no-op, the overflow event and the order are the spec's decisions D22, D7, D24: log 13 (UNVERIFIED), log 14 (UNVERIFIED), log 15 (UNVERIFIED)). -/
def Obligations.AddWritesTheShortestSum : Prop :=
  ∀ (f : Fields) (s : State),
    let a := regOperand f.r s
    let b := regOperand f.s s
    let n := hexToInt a + hexToInt b
    ∃ t, exec (.addInt f) s = .next t ∧
      (∀ k : Fin 16, t.x[k] =
        if isValidHex a = true ∧ isValidHex b = true ∧ n < 2 ^ 32 ∧ (k.val : Int) = f.t then intToHex n else s.x[k]) ∧
      t.mem = s.mem ∧ t.pc = s.pc ∧ t.ir = s.ir ∧ t.phase = s.phase ∧
      t.diag = s.diag ++ regReadEvents f.r ++ regReadEvents f.s ++
        (if isValidHex a = true ∧ isValidHex b = true then
          (if n < 2 ^ 32 then regWriteEvents f.t else [.cellOverflow n])
        else [.invalidHexDigit (!isValidHex a) (!isValidHex b)])

/-- Exchanging the sources of `A` leaves the same registers (41_hex_codec_integer_alu.md R110, derived there). -/
def Obligations.AddCommutesInValue : Prop :=
  ∀ (r1 r2 d : Int) (a i : Nat) (s : State),
    ∃ t u, exec (.addInt ⟨r1, r2, d, a, i⟩) s = .next t ∧ exec (.addInt ⟨r2, r1, d, a, i⟩) s = .next u ∧ t.x = u.x

/-- `J` completes on every word: when the register's cell equals `x[0]`, character for character, `pc` becomes the number in the
register; otherwise `pc` stays. Registers, memory, `ir` and the phase are unchanged; the one event is the refused read's. The target
of a cell of at most 8 characters is the number itself, not cut (43_control_unit.md R146; what is compared is the spec's decision D8,
log 11 (UNVERIFIED)). -/
def Obligations.JumpGoesToTheRegister : Prop :=
  ∀ (f : Fields) (s : State),
    let c := regOperand f.r s
    ∃ t, exec (.jump f) s = .next t ∧
      (c = s.x[0] → c.WellFormed → t.pc.toNat = hexToInt c) ∧
      (c ≠ s.x[0] → t.pc = s.pc) ∧
      t.x = s.x ∧ t.mem = s.mem ∧ t.ir = s.ir ∧ t.phase = s.phase ∧ t.diag = s.diag ++ regReadEvents f.r

/-- The parameter `JUMP_COMPARE` (00_scope.md R5, 43_control_unit.md R146): under `numeric` the condition is equality of the numbers
and nothing else in the rule changes. Taken, `pc` becomes the number in the register, which a cell of at most 8 characters keeps
whole; not taken, `pc` stays; registers, memory, `ir` and the phase are unchanged and the one event is the refused read's. Where
`cell` jumps, `numeric` does the same (log 11 (UNVERIFIED)). -/
def Obligations.NumericComparisonJumpsMore : Prop :=
  ∀ (r : Int) (s : State),
    let c := regOperand r s
    let t := cuJump .numeric r s
    (hexToInt c = hexToInt s.x[0] → c.WellFormed → t.pc.toNat = hexToInt c) ∧
    (hexToInt c ≠ hexToInt s.x[0] → t.pc = s.pc) ∧
    (c = s.x[0] → t = cuJump .cell r s) ∧
    t.x = s.x ∧ t.mem = s.mem ∧ t.ir = s.ir ∧ t.phase = s.phase ∧ t.diag = s.diag ++ regReadEvents r

/-- `H` completes on every word with the halt notice and no other change (43_control_unit.md R148; that the notice is an event is
the spec's decision D15, log 20 (UNVERIFIED)). -/
def Obligations.HaltRaisesTheNoticeAlone : Prop :=
  ∀ (f : Fields) (s : State), exec (.halt f) s = .next { s with diag := s.diag ++ [.haltNotice] }

/-! ### The step (44_instruction_cycle.md) -/

/-- A step runs the decoded instruction: when the cell at `pc` decodes to `i`, the step is `exec i` on the state with that cell in
`ir`, `pc` one more, no events yet and phase Decoded, and ends in Ready (R160 to R164). -/
def Obligations.StepRunsTheDecodedInstruction : Prop :=
  ∀ (s : State) (i : Instr), s.phase = .ready → s.pc.toNat < 256 → decode (s.mem.read s.pc.toNat) = .instruction i →
    ∃ t, exec i { s with ir := s.mem.read s.pc.toNat, pc := s.pc + 1#32, phase := .decoded, diag := [] } = .next t ∧
      step s = .next { t with phase := .ready }

/-- From Ready every step completes and is back in Ready; from no other phase is it accepted (R160; 45_host_ports.md R180; log 4 (DEDUCED)). -/
def Obligations.StepIsTotalFromReady : Prop :=
  ∀ s : State,
    (s.phase = .ready → ∃ t, step s = .next t ∧ t.phase = .ready) ∧
    (s.phase ≠ .ready → step s = .refused (.notReady s.phase))

/-- A fetched cell whose first character is no opcode, in memory or beyond it: the step raises InvalidOpcode with that character after
the fetch's own events, loads `ir`, advances `pc` by one, is back in Ready and changes nothing else (R165; beyond memory by R161,
derived there; `pc` at `2^32 - 1` wraps to 0 by 10_state.md R31, the spec's decision D5, log 7 (UNVERIFIED)). -/
def Obligations.InvalidWordIsSteppedOver : Prop :=
  ∀ s : State, s.phase = .ready → (fetchedCell s).slot 0 ∉ (Cell.ofString "LSAJH").chars →
    step s = .next { s with
      ir := fetchedCell s, pc := s.pc + 1#32, diag := fetchEvents s ++ [.invalidOpcode ((fetchedCell s).slot 0)] }

/-- A fetch at 256 or above: the two events, `ir = "00"`, `pc` one more modulo `2^32`, nothing else (R161, derived there from R94 and
R165; the wrap is the spec's decision D5, log 7 (UNVERIFIED)). -/
def Obligations.FetchBeyondMemory : Prop :=
  ∀ s : State, s.phase = .ready → 256 ≤ s.pc.toNat →
    ∃ t, step s = .next t ∧ t.pc.toNat = (s.pc.toNat + 1) % 2 ^ 32 ∧ t.ir = Cell.ofString "00" ∧
      t.diag = [.outOfRangeAddress .mem .read (s.pc.toNat : Int), .invalidOpcode 0x30#8] ∧
      t.x = s.x ∧ t.mem = s.mem ∧ t.phase = .ready

/-- Beyond memory the machine only counts: after `k` steps `pc` is `k` more and registers and memory are as they were; once a step
was made, `ir` holds `"00"` and the events are the last fetch's and the invalid opcode's (70_reset_and_hazards.md R228 and
44_instruction_cycle.md R161, both derived there). -/
def Obligations.BeyondMemoryOnlyCounts : Prop :=
  ∀ (k : Nat) (s : State), s.phase = .ready → 256 ≤ s.pc.toNat → s.pc.toNat + k < 2 ^ 32 →
    ∃ t : State, Host.Core.run core k s = .next t ∧ t.pc.toNat = s.pc.toNat + k ∧ t.x = s.x ∧ t.mem = s.mem ∧ t.phase = .ready ∧
      (k = 0 → t = s) ∧
      (0 < k → t.ir = Cell.ofString "00" ∧
        t.diag = [.outOfRangeAddress .mem .read ((s.pc.toNat + k - 1 : Nat) : Int), .invalidOpcode 0x30#8])

/-- What a step may write, by the first character fetched (R166, derived there from R160 and the arm rules). -/
def Obligations.StepWritesByOpcode : Prop :=
  ∀ s t : State, step s = .next t →
    let w := fetchedCell s
    let f := decodeFields w
    t.ir = w ∧
    (w.slot 0 ≠ 0x4A#8 → t.pc = s.pc + 1#32) ∧
    (w.slot 0 = 0x4A#8 → t.pc = s.pc + 1#32 ∨ t.pc = BitVec.ofNat 32 (hexToInt (regOperand f.r s))) ∧
    (∀ k : Fin 16, t.x[k] ≠ s.x[k] →
      (w.slot 0 = 0x4C#8 ∧ (k.val : Int) = f.r) ∨ (w.slot 0 = 0x41#8 ∧ (k.val : Int) = f.t)) ∧
    (∀ a : Nat, t.mem.read a ≠ s.mem.read a → w.slot 0 = 0x53#8 ∧ a = f.address)

/-- At most three events in one step, three are possible, and beyond memory there are exactly two (60_exceptions.md R201; the order
is the spec's decision D13, log 18 (UNVERIFIED)). -/
def Obligations.AtMostThreeEventsPerStep : Prop :=
  (∀ s t : State, step s = .next t → t.diag.length ≤ 3 ∧ (256 ≤ s.pc.toNat → t.diag.length = 2)) ∧
  ∃ s t : State, step s = .next t ∧ t.diag.length = 3

/-- A step's events hold the halt notice exactly when the fetched cell begins with `H` (43_control_unit.md R148; 60_exceptions.md R198;
log 20 (UNVERIFIED)). -/
def Obligations.HaltNoticeExactlyAfterH : Prop :=
  ∀ s t : State, step s = .next t → (.haltNotice ∈ t.diag ↔ (fetchedCell s).slot 0 = 0x48#8)

/-- No step depends on the events of an earlier command or on the old `ir` (45_host_ports.md R187; 10_state.md R33). -/
def Obligations.StepForgetsEventsAndIr : Prop :=
  ∀ (s : State) (d : List Diag) (w : Cell), step { s with diag := d, ir := w } = step s

/-- Self-modifying code: the step that stores does not change its own word, and any later fetch at the stored address, with memory as
the store left it, brings the stored cell (20_memory.md R62, derived there). -/
def Obligations.StoredCellIsFetched : Prop :=
  ∀ (s t : State) (f : Fields), s.mem.WellFormed → s.pc.toNat < 256 → decode (s.mem.read s.pc.toNat) = .instruction (.store f) →
    step s = .next t →
    t.ir = s.mem.read s.pc.toNat ∧
    ∀ u v : State, u.mem = t.mem → u.pc.toNat = f.address → step u = .next v → v.ir = regOperand f.r s

/-- The four phases are passed in order, once each, for every word (R164; 10_state.md R35). -/
def Obligations.PhasesArePassedInOrder : Prop :=
  ∀ s : State,
    (fetch s.beginCommand).phase = .fetched ∧ (stepEntry s).phase = .decoded ∧
    ∀ u, executeDecoded (decode (stepEntry s).ir) (stepEntry s) = .next u →
      u.phase = .decoded ∧ (executedPhase u).phase = .executed ∧ (readyPhase (executedPhase u)).phase = .ready ∧
      (s.phase = .ready → step s = .next (readyPhase (executedPhase u)))

/-- Every step keeps the state legal: every cell at most 8 characters, memory canonical and below 256, the phase Ready between
steps (10_state.md R21, R24, R35; 20_memory.md R50; the forms are the model's, log 1 (DESIGN CHOICE) and log 2 (DESIGN CHOICE)). -/
def Obligations.StepKeepsWellFormed : Prop :=
  ∀ s t : State, s.WellFormed → step s = .next t → t.WellFormed

/-- The state after reset is legal, whatever `PC_START`: every cell at most 8 characters, memory canonical and below 256, the phase
Ready (10_state.md R21, R24, R35, R40; 20_memory.md R50; the forms are the model's, log 1 (DESIGN CHOICE) and log 2 (DESIGN CHOICE)). -/
def Obligations.ResetIsWellFormed : Prop :=
  (∀ p : PcWord, (State.resetAt p).WellFormed) ∧ State.reset.WellFormed

/-- After reset every register holds `"00"`, length 2, both characters `0x30`, and reading it is no error (10_state.md R27). -/
def Obligations.ResetRegistersHoldZeros : Prop :=
  ∀ k : Fin 16,
    (State.reset.x[k]).len = 2 ∧ (State.reset.x[k]).slot 0 = 0x30#8 ∧ (State.reset.x[k]).slot 1 = 0x30#8 ∧
    (∀ i : Nat, 2 ≤ i → (State.reset.x[k]).slot i = 0x00#8) ∧
    regRead (k.val : Int) State.reset = (Cell.ofString "00", State.reset)

/-- The whole state after reset, with `PC_START` at 10 by default (10_state.md R40; 70_reset_and_hazards.md R220; `ir` empty is the
spec's decision D6, memory cleared its decision D18: log 5 (UNVERIFIED), log 6 (UNVERIFIED), log 21 (UNVERIFIED)). -/
def Obligations.ResetState : Prop :=
  State.reset = State.resetAt 10#32 ∧
  ∀ p : PcWord,
    (∀ k : Fin 16, (State.resetAt p).x[k] = Cell.ofString "00") ∧
    (∀ a : Nat, (State.resetAt p).mem.read a = Cell.ofString "00") ∧
    (State.resetAt p).pc = p ∧ (State.resetAt p).ir = Cell.ofString "" ∧ (State.resetAt p).phase = .ready ∧
    (State.resetAt p).diag = []

/-! ### The float codec and adder (42_float_codec_alu.md) -/

/-- The format and its one formula: the sign is bit 7, the exponent bits 6 to 4, the mantissa bits 3 to 0, and packing the three gives
the byte back (R120); every byte stands for `(-1)^sign * 2^(exponent-4) * mantissa/16` (R122), and is normalised when its mantissa is
8 or more (R123, derived there). The integer form is that value in units of `1/256`, between -1920 and 1920 (R122, derived there). -/
def Obligations.FloatDecodeFormula : Prop :=
  ∀ b : Byte,
    let sign := (b.extractLsb' 7 1).toNat
    let exponent := (b.extractLsb' 4 3).toNat
    let mantissa := (b.extractLsb' 0 4).toNat
    fsign b = sign ∧ fexponent b = exponent ∧ fmantissa b = mantissa ∧ fpack sign exponent mantissa = b ∧
    fdecode b = (-1) ^ sign * (2 : Rat) ^ ((exponent : Int) - 4) * ((mantissa : Rat) / 16) ∧
    (fnormalised b = true ↔ 8 ≤ mantissa) ∧
    fdecode b = (fval b : Rat) / 256 ∧ -1920 ≤ fval b ∧ fval b ≤ 1920

/-- The normaliser's loops end, exactly, with the magnitude in [0.5, 1.0) after at most 4 halvings or 7 doublings (R126;
70_reset_and_hazards.md R229, derived there; the bound on the passes is the model's, log 22 (DEDUCED)). -/
def Obligations.NormaliserReachesHalfToOne : Prop :=
  ∀ n : Nat, 0 < n → n ≤ 3840 →
    let m := normalise n
    m.num < 2 ^ m.scale ∧ 2 ^ m.scale ≤ 2 * m.num ∧ -7 ≤ m.exp ∧ m.exp ≤ 4 ∧
    n * 2 ^ m.scale * 2 ^ (-m.exp).toNat = 256 * m.num * 2 ^ m.exp.toNat

/-- The looping encoder and the priority-encoder form agree on every sum the adder can make (R127, derived there). -/
def Obligations.EncoderMatchesIntegerForm : Prop :=
  ∀ k : Int, k ≠ 0 → -3840 ≤ k → k ≤ 3840 → fencode k = fencodeK k

/-- Encoding truncates the magnitude toward zero: a representable sum gives a normalised byte of the same sign, not larger, and
within one unit of the last mantissa place; any other sum gives the zero byte and the exponent that fell outside 0..7 (R126, R127,
R132, the last two derived there; 60_exceptions.md R190). -/
def Obligations.EncodingTruncatesTowardZero : Prop :=
  ∀ k : Int, k ≠ 0 → -3840 ≤ k → k ≤ 3840 →
    (8 ≤ k.natAbs ∧ k.natAbs < 2048 →
      ∃ b, fencode k = (b, none) ∧ fnormalised b = true ∧ (0 < k → 0 < fval b) ∧ (k < 0 → fval b < 0) ∧
        (fval b).natAbs ≤ k.natAbs ∧ k.natAbs < (fval b).natAbs + 2 ^ fexponent b) ∧
    (k.natAbs < 8 ∨ 2048 ≤ k.natAbs → ∃ e, fencode k = (0x00#8, some e) ∧ (e = 8 ∨ (-3 ≤ e ∧ e ≤ -1)))

/-- The round trip holds for the 128 normalised bytes, and for no byte of mantissa 1 to 7 (R128). -/
def Obligations.NormalisedBytesRoundTrip : Prop :=
  ∀ b : Byte,
    (8 ≤ fmantissa b → fencode (fval b) = (b, none)) ∧
    (1 ≤ fmantissa b → fmantissa b ≤ 7 → (fencode (fval b)).1 ≠ b)

/-- `addFloats` through its port: the destination becomes `"00"` for a zero sum and the two digits of the encoded sum otherwise, the
zero byte of an unrepresentable sum included; nothing else changes but the events, in order (R130, R131; 45_host_ports.md R186; the
operand's byte is the spec's decision D10, the digits' case D11, the port D14: log 16 (UNVERIFIED), log 17 (UNVERIFIED), log 19 (UNVERIFIED)). -/
def Obligations.AddFloatsWritesTheEncodedSum : Prop :=
  ∀ (a b d : Int) (s : State), s.phase = .ready →
    let k := fval (fbyte (regOperand a s)) + fval (fbyte (regOperand b s))
    ∃ t, perform (.aluExecute 1 a b d) s = .next t ∧
      (∀ j : Fin 16, t.x[j] =
        if (j.val : Int) = d then (if k = 0 then Cell.ofString "00" else byteToHex2 (fencode k).1) else s.x[j]) ∧
      t.mem = s.mem ∧ t.pc = s.pc ∧ t.ir = s.ir ∧ t.phase = s.phase ∧
      t.diag = regReadEvents a ++ regReadEvents b ++
        (if k = 0 then [] else ((fencode k).2.toList.map Diag.unrepresentableFloat)) ++ regWriteEvents d

/-- Float addition is commutative on the registers (R132, derived there). -/
def Obligations.FloatAddCommutes : Prop :=
  ∀ (a b d : Int) (s : State), (addFloats a b d s).x = (addFloats b a d s).x

/-- Float addition is not associative (R132: truncation): three operand cells and the two orders of adding them in one register file. -/
def Obligations.FloatAddIsNotAssociative : Prop :=
  ∃ s : State, (addFloats 4 3 5 (addFloats 1 2 4 s)).x[(5 : Fin 16)] ≠ (addFloats 1 4 5 (addFloats 2 3 4 s)).x[(5 : Fin 16)]

/-- The tagged entry: 0 the integer add, 1 the float add, any other tag its event and no other change (R131). -/
def Obligations.AluExecuteDispatchesOnTheTag : Prop :=
  ∀ (kind a b d : Int) (s : State),
    aluExecute 0 a b d s = addIntegers a b d s ∧ aluExecute 1 a b d s = addFloats a b d s ∧
    (kind ≠ 0 → kind ≠ 1 → aluExecute kind a b d s = { s with diag := s.diag ++ [.invalidOperationTag kind] })

/-! ### The host ports (45_host_ports.md) -/

/-- A command is accepted only in Ready, completes, and leaves the machine in Ready; the one command that is not expressible, a write
of more than 8 characters, is refused at every address (R180, R184; log 4 (DEDUCED), log 24 (DEDUCED)). -/
def Obligations.CommandsRunInReadyOnly : Prop :=
  ∀ (c : Command) (s : State),
    (s.phase ≠ .ready → perform c s = .refused (.notReady s.phase)) ∧
    (s.phase = .ready → (∀ a v, c = .memoryWrite a v → v.WellFormed) → ∃ t, perform c s = .next t ∧ t.phase = .ready) ∧
    (s.phase = .ready → ∀ a v, c = .memoryWrite a v → ¬ v.WellFormed → perform c s = .refused (.nonCanonicalCell v))

/-- The three reading ports answer the program counter, the register and the memory cell, and change no state (R181, R183, R185). -/
def Obligations.ReadingPortsChangeNothing : Prop :=
  ∀ s : State, s.phase = .ready →
    (perform .getProgramCounter s = .next { s with diag := [] } ∧ replyTo .getProgramCounter s = .counter s.pc) ∧
    (∀ k : Fin 16, perform (.getRegister (k.val : Int)) s = .next { s with diag := [] } ∧
      replyTo (.getRegister (k.val : Int)) s = .cell s.x[k]) ∧
    (∀ i : Int, i < 0 ∨ 16 ≤ i → perform (.getRegister i) s = .next { s with diag := [.outOfRangeAddress .reg .read i] } ∧
      replyTo (.getRegister i) s = .cell (Cell.ofString "00")) ∧
    (∀ a : Nat, a < 256 → perform (.memoryRead (a : Int)) s = .next { s with diag := [] } ∧
      replyTo (.memoryRead (a : Int)) s = .cell (s.mem.read a)) ∧
    (∀ a : Int, a < 0 ∨ 256 ≤ a → perform (.memoryRead a) s = .next { s with diag := [.outOfRangeAddress .mem .read a] } ∧
      replyTo (.memoryRead a) s = .cell (Cell.ofString "00"))

/-- `setProgramCounter` writes `pc`, unchecked, and nothing else (R182; the port's width is the spec's decision D5, log 7 (UNVERIFIED)). -/
def Obligations.SetProgramCounterWritesPcAlone : Prop :=
  ∀ (v : PcWord) (s : State), s.phase = .ready → perform (.setProgramCounter v) s = .next { s with pc := v, diag := [] }

/-- `reset` at any time the core is Ready gives the reset state of its `PC_START`; nothing survives (70_reset_and_hazards.md R220, R221;
that memory is cleared too is the spec's decision D18, log 21 (UNVERIFIED)). -/
def Obligations.ResetPortForgetsEverything : Prop :=
  ∀ (p : PcWord) (s : State), s.phase = .ready → perform (.reset p) s = .next (State.resetAt p)

/-- The memory write port: a cell in range is written whole and nothing else changes; out of range one event and no change (R184;
what it refuses is log 24 (DEDUCED)). -/
def Obligations.MemoryWritePort : Prop :=
  ∀ (v : Cell) (s : State), s.phase = .ready → s.mem.WellFormed → v.WellFormed →
    (∀ a : Nat, a < 256 → ∃ t, perform (.memoryWrite (a : Int) v) s = .next t ∧
      (∀ b : Nat, t.mem.read b = if b = a then v else s.mem.read b) ∧ t = { s with mem := t.mem, diag := [] }) ∧
    (∀ a : Int, a < 0 ∨ 256 ≤ a →
      perform (.memoryWrite a v) s = .next { s with diag := [.outOfRangeAddress .mem .write a] })

/-- `move` through its port: the destination becomes the source's cell, whole, or `"00"` for a source out of range; nothing else
changes but the events (43_control_unit.md R142; 45_host_ports.md R186; the port is the spec's decision D14: log 15 (UNVERIFIED), log 19 (UNVERIFIED)). -/
def Obligations.MoveCopiesTheRegister : Prop :=
  ∀ (src dst : Int) (s : State), s.phase = .ready →
    ∃ t, perform (.move src dst) s = .next t ∧
      (∀ j : Fin 16, t.x[j] = if (j.val : Int) = dst then regOperand src s else s.x[j]) ∧
      t.mem = s.mem ∧ t.pc = s.pc ∧ t.ir = s.ir ∧ t.phase = s.phase ∧
      t.diag = regReadEvents src ++ regWriteEvents dst

/-- What each port may write: registers only by reset, a step, `move` and the ALU; memory only by reset, a step and the write port; `pc`
only by reset, a step and `setProgramCounter`; `ir` only by reset and a step (10_state.md R26, R30, R33; 45_host_ports.md R186, R189). -/
def Obligations.PortsWriteOnlyTheirState : Prop :=
  ∀ (c : Command) (s t : State), perform c s = .next t →
    (t.x = s.x ∨ (∃ p, c = .reset p) ∨ c = .runNextStep ∨ (∃ a b, c = .move a b) ∨ ∃ k a b d, c = .aluExecute k a b d) ∧
    (t.mem = s.mem ∨ (∃ p, c = .reset p) ∨ c = .runNextStep ∨ ∃ a v, c = .memoryWrite a v) ∧
    (t.pc = s.pc ∨ (∃ p, c = .reset p) ∨ c = .runNextStep ∨ ∃ v, c = .setProgramCounter v) ∧
    (t.ir = s.ir ∨ (∃ p, c = .reset p) ∨ c = .runNextStep)

/-- Every command of the host keeps the state legal (10_state.md R21, R24, R35; 45_host_ports.md R180, R184; log 1 (DESIGN CHOICE), log 2 (DESIGN CHOICE)). -/
def Obligations.CommandsKeepWellFormed : Prop :=
  ∀ (c : Command) (s t : State), s.WellFormed → perform c s = .next t → t.WellFormed

/-- `Memory.bulkLoad` puts one token in each cell from address 0 upward, leaves the cells above the image as they were, and refuses
what lies beyond 255: the events left are the last write's, none for a token that had a cell, one for a 257th or later. Registers,
`pc`, `ir` and the phase are unchanged (45_host_ports.md R184; log 28 (DEDUCED)). -/
def Obligations.BulkLoadFillsFromZero : Prop :=
  ∀ (tokens : List Cell) (s : State), s.WellFormed → (∀ c ∈ tokens, c.WellFormed) →
    ∃ t, bulkLoad tokens s = .next t ∧
      (∀ a : Nat, a < 256 → t.mem.read a = (tokens[a]?).getD (s.mem.read a)) ∧
      t.mem.WellFormed ∧ t.x = s.x ∧ t.pc = s.pc ∧ t.ir = s.ir ∧ t.phase = s.phase ∧
      t.diag = if tokens.length = 0 then s.diag
        else if tokens.length ≤ 256 then []
        else [.outOfRangeAddress .mem .write ((tokens.length - 1 : Nat) : Int)]

/-- The driver's run: it is a run of the machine, of at most `k` steps, and stops short of `k` only where the last step's events hold
the halt notice (44_instruction_cycle.md R167, the spec's decision D15; log 20 (UNVERIFIED)). -/
def Obligations.DriverStopsAtTheHaltNotice : Prop :=
  ∀ (k : Nat) (s : State), s.phase = .ready →
    ∃ (j : Nat) (t : State), j ≤ k ∧ drive k s = .next t ∧ Host.Core.run core j s = .next t ∧
      (j < k → 0 < j ∧ t.haltNoticed = true) ∧
      ∀ (i : Nat) (u : State), 0 < i → i < j → Host.Core.run core i s = .next u → u.haltNoticed = false

/-! ### The conversions of the float adder, and the ports of the ALU and of the step -/

/-- From cell to byte and back. An operand's byte is its number modulo 256, which for a cell of two or more characters is the number
of the last two, a bad character counting as 0 (R121, the spec's decision D10, log 16 (UNVERIFIED)). A byte is written as the
upper-case digits of its upper and lower four bits, always two (R129, the spec's decision D11, log 17 (UNVERIFIED)), and those two
characters are read as that byte. -/
def Obligations.FloatCellConversions : Prop :=
  (∀ c : Cell,
    (fbyte c).toNat = hexToInt c % 256 ∧
    (c.len = 0 → fbyte c = 0x00#8) ∧
    (c.len = 1 → (fbyte c).toNat = digit (c.slot 0)) ∧
    (2 ≤ c.len → (fbyte c).toNat = 16 * digit (c.slot (c.len - 2)) + digit (c.slot (c.len - 1)))) ∧
  ∀ b : Byte,
    (byteToHex2 b).len = 2 ∧
    (byteToHex2 b).slot 0 = hexchar (b.extractLsb' 4 4).toNat ∧
    (byteToHex2 b).slot 1 = hexchar (b.extractLsb' 0 4).toNat ∧
    isValidHex (byteToHex2 b) = true ∧ fbyte (byteToHex2 b) = b

/-- The ALU's tagged entry through its port, beside the float add: tag 0 is the integer add, with the effect, the frame and the events
of `A`; a tag other than 0 and 1 is its event and no other change (R131; 41_hex_codec_integer_alu.md R107, R108; 45_host_ports.md
R186; the no-op, the overflow event, the order and the port are the spec's decisions D22, D7, D24, D14: log 13 (UNVERIFIED), log 14
(UNVERIFIED), log 15 (UNVERIFIED), log 19 (UNVERIFIED)). -/
def Obligations.AluPortAddsIntegersOrRejectsTheTag : Prop :=
  ∀ (a b d : Int) (s : State), s.phase = .ready →
    (let u := regOperand a s
     let v := regOperand b s
     let n := hexToInt u + hexToInt v
     ∃ t, perform (.aluExecute 0 a b d) s = .next t ∧
      (∀ j : Fin 16, t.x[j] =
        if isValidHex u = true ∧ isValidHex v = true ∧ n < 2 ^ 32 ∧ (j.val : Int) = d then intToHex n else s.x[j]) ∧
      t.mem = s.mem ∧ t.pc = s.pc ∧ t.ir = s.ir ∧ t.phase = s.phase ∧
      t.diag = regReadEvents a ++ regReadEvents b ++
        (if isValidHex u = true ∧ isValidHex v = true then
          (if n < 2 ^ 32 then regWriteEvents d else [.cellOverflow n])
        else [.invalidHexDigit (!isValidHex u) (!isValidHex v)])) ∧
    ∀ kind : Int, kind ≠ 0 → kind ≠ 1 →
      perform (.aluExecute kind a b d) s = .next { s with diag := [.invalidOperationTag kind] }

/-- The command `runNextStep` is one step of the machine, in Ready and out of it (R160; 45_host_ports.md R180). -/
def Obligations.RunNextStepCommandIsTheStep : Prop :=
  ∀ s : State, perform .runNextStep s = step s
end

