-- ==== Sys2Proof/Laws/Memory.lean ====
section
/-! SUPPORT. The laws of memory: a read after a write, and the canonical form. -/

namespace Sys2Proof.Machine

theorem Memory.reset_wellFormed : Memory.reset.WellFormed := by decide

theorem Memory.read_reset (a : Nat) : Memory.reset.read a = Cell.zeros := rfl

/-- An address below every listed address reads as `"00"`. -/
theorem readEntries_below {es : List (Nat × Cell)} {a : Nat} (h : ∀ p ∈ es, a < p.1) : readEntries es a = Cell.zeros := by
  induction es with
  | nil => rfl
  | cons p rest ih =>
    have hp := h p (by simp)
    simp only [readEntries, Nat.ne_of_lt hp, if_false]
    exact ih fun q hq => h q (by simp [hq])

/-- A write leaves every other address as it read before, whatever the list. -/
theorem readEntries_writeEntries_other (es : List (Nat × Cell)) (v : Cell) {a b : Nat} (h : b ≠ a) :
    readEntries (writeEntries es a v) b = readEntries es b := by
  induction es with
  | nil => simp only [writeEntries]; split <;> simp [readEntries, h]
  | cons p rest ih =>
    simp only [writeEntries]
    split
    · split <;> simp [readEntries, h]
    · split
      · next heq => subst heq; split <;> simp [readEntries, h]
      · simp [readEntries, ih]

/-- In a rising list the written address reads as what was written. -/
theorem readEntries_writeEntries_same {es : List (Nat × Cell)} (h : es.Pairwise fun p q => p.1 < q.1) (a : Nat) (v : Cell) :
    readEntries (writeEntries es a v) a = v := by
  induction es with
  | nil => simp only [writeEntries]; split <;> simp_all [readEntries]
  | cons p rest ih =>
    obtain ⟨hlt, hrest⟩ := List.pairwise_cons.mp h
    simp only [writeEntries]
    split
    · next ha =>
      split
      · next hv => subst hv; exact readEntries_below (by
          intro q hq
          rcases List.mem_cons.mp hq with rfl | hq
          · exact ha
          · exact Nat.lt_trans ha (hlt q hq))
      · simp [readEntries]
    · split
      · next heq =>
        subst heq
        split
        · next hv => subst hv; exact readEntries_below hlt
        · simp [readEntries]
      · next hne => simp [readEntries, hne, ih hrest]

/-- Every entry of the written list is an entry of the list or the written one, which does not hold `"00"`. -/
theorem mem_writeEntries {es : List (Nat × Cell)} {a : Nat} {v : Cell} {p : Nat × Cell} (h : p ∈ writeEntries es a v) :
    p ∈ es ∨ (p = (a, v) ∧ v ≠ Cell.zeros) := by
  induction es with
  | nil => simp only [writeEntries] at h; split at h <;> simp_all
  | cons q rest ih =>
    simp only [writeEntries] at h
    split at h
    · split at h
      · exact .inl h
      · rcases List.mem_cons.mp h with rfl | h
        · exact .inr ⟨rfl, ‹_›⟩
        · exact .inl h
    · split at h
      · split at h
        · exact .inl (List.mem_cons_of_mem _ h)
        · rcases List.mem_cons.mp h with rfl | h
          · exact .inr ⟨rfl, ‹_›⟩
          · exact .inl (List.mem_cons_of_mem _ h)
      · rcases List.mem_cons.mp h with rfl | h
        · exact .inl (by simp)
        · rcases ih h with h | h
          · exact .inl (List.mem_cons_of_mem _ h)
          · exact .inr h

/-- A write keeps the list rising. -/
theorem writeEntries_pairwise {es : List (Nat × Cell)} (h : es.Pairwise fun p q => p.1 < q.1) (a : Nat) (v : Cell) :
    (writeEntries es a v).Pairwise fun p q => p.1 < q.1 := by
  induction es with
  | nil => simp only [writeEntries]; split <;> simp
  | cons p rest ih =>
    obtain ⟨hlt, hrest⟩ := List.pairwise_cons.mp h
    simp only [writeEntries]
    split
    · next ha =>
      split
      · exact h
      · refine List.pairwise_cons.mpr ⟨fun q hq => ?_, h⟩
        rcases List.mem_cons.mp hq with rfl | hq
        · exact ha
        · exact Nat.lt_trans ha (hlt q hq)
    · split
      · next heq =>
        split
        · exact hrest
        · exact List.pairwise_cons.mpr ⟨fun q hq => heq ▸ hlt q hq, hrest⟩
      · next hna hne =>
        refine List.pairwise_cons.mpr ⟨fun q hq => ?_, ih hrest⟩
        rcases mem_writeEntries hq with hq | ⟨rfl, -⟩
        · exact hlt q hq
        · show p.1 < a
          omega

/-- The raw write keeps the canonical form, for an address that exists and a cell that can be held. -/
theorem Memory.write_wellFormed {m : Memory} (hm : m.WellFormed) {a : Nat} (ha : a < 256) {v : Cell} (hv : v.WellFormed) :
    (m.write a v).WellFormed := by
  refine ⟨writeEntries_pairwise hm.1 a v, fun p hp => ?_⟩
  rcases mem_writeEntries hp with hp | ⟨rfl, hne⟩
  · exact hm.2 p hp
  · exact ⟨ha, hne, hv⟩

/-- Read after write (20_memory.md R52): the written cell holds the value, every other cell what it held. -/
theorem Memory.read_write {m : Memory} (hm : m.WellFormed) (a b : Nat) (v : Cell) :
    (m.write a v).read b = if b = a then v else m.read b := by
  unfold Memory.read Memory.write
  split
  · next h => subst h; exact readEntries_writeEntries_same hm.1 _ v
  · next h => exact readEntries_writeEntries_other _ v h

/-- Every cell of a canonical memory is at most 8 characters. -/
theorem Memory.read_wellFormed {m : Memory} (hm : m.WellFormed) (a : Nat) : (m.read a).WellFormed := by
  have go : ∀ es : List (Nat × Cell), (∀ p ∈ es, p.2.WellFormed) → (readEntries es a).WellFormed := by
    intro es
    induction es with
    | nil => intro _; exact Nat.le_of_ble_eq_true rfl
    | cons p rest ih =>
      intro h
      simp only [readEntries]
      split
      · exact h p (by simp)
      · exact ih fun q hq => h q (by simp [hq])
  exact go m.entries fun p hp => (hm.2 p hp).2.2

end Sys2Proof.Machine
end

