-- ==== Sys2Proof/Laws/State.lean ====
section
/-! SUPPORT. One lemma per field per update of the state, each true by unfolding the update once. -/

namespace Sys2Proof.Machine

@[simp] theorem State.raise_x (s : State) (d : Diag) : (s.raise d).x = s.x := rfl
@[simp] theorem State.raise_mem (s : State) (d : Diag) : (s.raise d).mem = s.mem := rfl
@[simp] theorem State.raise_pc (s : State) (d : Diag) : (s.raise d).pc = s.pc := rfl
@[simp] theorem State.raise_ir (s : State) (d : Diag) : (s.raise d).ir = s.ir := rfl
@[simp] theorem State.raise_phase (s : State) (d : Diag) : (s.raise d).phase = s.phase := rfl
@[simp] theorem State.raise_diag (s : State) (d : Diag) : (s.raise d).diag = s.diag ++ [d] := rfl

@[simp] theorem State.beginCommand_x (s : State) : (s.beginCommand).x = s.x := rfl
@[simp] theorem State.beginCommand_mem (s : State) : (s.beginCommand).mem = s.mem := rfl
@[simp] theorem State.beginCommand_pc (s : State) : (s.beginCommand).pc = s.pc := rfl
@[simp] theorem State.beginCommand_ir (s : State) : (s.beginCommand).ir = s.ir := rfl
@[simp] theorem State.beginCommand_phase (s : State) : (s.beginCommand).phase = s.phase := rfl
@[simp] theorem State.beginCommand_diag (s : State) : (s.beginCommand).diag = [] := rfl

@[simp] theorem State.setReg_x (s : State) (k : Fin 16) (v : Cell) : (s.setReg k v).x = s.x.set k v := rfl
@[simp] theorem State.setReg_mem (s : State) (k : Fin 16) (v : Cell) : (s.setReg k v).mem = s.mem := rfl
@[simp] theorem State.setReg_pc (s : State) (k : Fin 16) (v : Cell) : (s.setReg k v).pc = s.pc := rfl
@[simp] theorem State.setReg_ir (s : State) (k : Fin 16) (v : Cell) : (s.setReg k v).ir = s.ir := rfl
@[simp] theorem State.setReg_phase (s : State) (k : Fin 16) (v : Cell) : (s.setReg k v).phase = s.phase := rfl
@[simp] theorem State.setReg_diag (s : State) (k : Fin 16) (v : Cell) : (s.setReg k v).diag = s.diag := rfl

@[simp] theorem State.setMem_x (s : State) (a : Nat) (v : Cell) : (s.setMem a v).x = s.x := rfl
@[simp] theorem State.setMem_mem (s : State) (a : Nat) (v : Cell) : (s.setMem a v).mem = s.mem.write a v := rfl
@[simp] theorem State.setMem_pc (s : State) (a : Nat) (v : Cell) : (s.setMem a v).pc = s.pc := rfl
@[simp] theorem State.setMem_ir (s : State) (a : Nat) (v : Cell) : (s.setMem a v).ir = s.ir := rfl
@[simp] theorem State.setMem_phase (s : State) (a : Nat) (v : Cell) : (s.setMem a v).phase = s.phase := rfl
@[simp] theorem State.setMem_diag (s : State) (a : Nat) (v : Cell) : (s.setMem a v).diag = s.diag := rfl

@[simp] theorem decodePhase_x (s : State) : (decodePhase s).x = s.x := rfl
@[simp] theorem decodePhase_mem (s : State) : (decodePhase s).mem = s.mem := rfl
@[simp] theorem decodePhase_pc (s : State) : (decodePhase s).pc = s.pc := rfl
@[simp] theorem decodePhase_ir (s : State) : (decodePhase s).ir = s.ir := rfl
@[simp] theorem decodePhase_phase (s : State) : (decodePhase s).phase = .decoded := rfl
@[simp] theorem decodePhase_diag (s : State) : (decodePhase s).diag = s.diag := rfl

@[simp] theorem executedPhase_x (s : State) : (executedPhase s).x = s.x := rfl
@[simp] theorem executedPhase_mem (s : State) : (executedPhase s).mem = s.mem := rfl
@[simp] theorem executedPhase_pc (s : State) : (executedPhase s).pc = s.pc := rfl
@[simp] theorem executedPhase_ir (s : State) : (executedPhase s).ir = s.ir := rfl
@[simp] theorem executedPhase_phase (s : State) : (executedPhase s).phase = .executed := rfl
@[simp] theorem executedPhase_diag (s : State) : (executedPhase s).diag = s.diag := rfl

@[simp] theorem readyPhase_x (s : State) : (readyPhase s).x = s.x := rfl
@[simp] theorem readyPhase_mem (s : State) : (readyPhase s).mem = s.mem := rfl
@[simp] theorem readyPhase_pc (s : State) : (readyPhase s).pc = s.pc := rfl
@[simp] theorem readyPhase_ir (s : State) : (readyPhase s).ir = s.ir := rfl
@[simp] theorem readyPhase_phase (s : State) : (readyPhase s).phase = .ready := rfl
@[simp] theorem readyPhase_diag (s : State) : (readyPhase s).diag = s.diag := rfl

@[simp] theorem State.resetAt_mem (start : PcWord) : (State.resetAt start).mem = Memory.reset := rfl
@[simp] theorem State.resetAt_pc (start : PcWord) : (State.resetAt start).pc = start := rfl
@[simp] theorem State.resetAt_ir (start : PcWord) : (State.resetAt start).ir = Cell.empty := rfl
@[simp] theorem State.resetAt_phase (start : PcWord) : (State.resetAt start).phase = .ready := rfl
@[simp] theorem State.resetAt_diag (start : PcWord) : (State.resetAt start).diag = [] := rfl
@[simp] theorem State.resetAt_x (start : PcWord) : (State.resetAt start).x = Vector.replicate 16 Cell.zeros := rfl

/-- Two states with equal fields are equal. -/
theorem State.eq_of_fields {s t : State} (hx : s.x = t.x) (hm : s.mem = t.mem) (hp : s.pc = t.pc) (hi : s.ir = t.ir)
    (hf : s.phase = t.phase) (hd : s.diag = t.diag) : s = t := by
  cases s; cases t; simp_all

/-- What the raw write of a register leaves in each register. -/
theorem State.setReg_getElem (s : State) (k : Fin 16) (v : Cell) (j : Fin 16) :
    (s.setReg k v).x[j] = if j = k then v else s.x[j] := by
  simp only [State.setReg_x, Fin.getElem_fin, Vector.getElem_set, Fin.ext_iff, eq_comm]

end Sys2Proof.Machine
end

