-- ==== Sys2Proof/Laws/Ops.lean ====
section
/-! SUPPORT. What each shared access primitive can do, said once (spec 40_storage_ports.md R90 to R94). -/

namespace Sys2Proof.Machine

/-- The checked register index, as its two cases. -/
theorem regIndex_cases (i : Int) :
    (∃ k : Fin 16, (k.val : Int) = i ∧ regIndex i = some k) ∨ ((i < 0 ∨ 15 < i) ∧ regIndex i = none) := by
  unfold regIndex
  split
  · next h => exact .inl ⟨⟨i.toNat, by omega⟩, by simp only; omega, rfl⟩
  · next h => exact .inr ⟨by omega, rfl⟩

/-- The checked address, as its two cases. -/
theorem memIndex_cases (a : Int) :
    (∃ k : Nat, k < 256 ∧ (k : Int) = a ∧ memIndex a = some k) ∨ ((a < 0 ∨ 255 < a) ∧ memIndex a = none) := by
  unfold memIndex
  split
  · next h => exact .inl ⟨a.toNat, by omega, by omega, rfl⟩
  · next h => exact .inr ⟨by omega, rfl⟩

theorem regIndex_of_fin (k : Fin 16) : regIndex (k.val : Int) = some k := by
  rcases regIndex_cases (k.val : Int) with ⟨j, hj, h⟩ | ⟨h, -⟩
  · rw [h]; congr 1; apply Fin.ext; omega
  · omega

theorem memIndex_of_nat {a : Nat} (h : a < 256) : memIndex (a : Int) = some a := by
  rcases memIndex_cases (a : Int) with ⟨j, _, hj, e⟩ | ⟨h', -⟩
  · rw [e]; congr 1; omega
  · omega

/-- `RegRead` changes nothing but the events. -/
theorem regRead_state (i : Int) (s : State) : (regRead i s).2 = { s with diag := s.diag ++ regReadEvents i } := by
  unfold regRead regReadEvents
  rcases regIndex_cases i with ⟨k, -, h⟩ | ⟨-, h⟩ <;> rw [h] <;> simp [State.raise]

/-- What `RegRead` answers depends on the register file alone. -/
theorem regOperand_congr (i : Int) {s t : State} (h : s.x = t.x) : regOperand i s = regOperand i t := by
  unfold regOperand regRead
  rcases regIndex_cases i with ⟨k, -, e⟩ | ⟨-, e⟩ <;> simp [e, h]

theorem regRead_eq (i : Int) (s : State) :
    regRead i s = (regOperand i s, { s with diag := s.diag ++ regReadEvents i }) := by
  rw [← regRead_state]; rfl

/-- What `RegWrite` leaves in each register: the value in the one it names, if any. -/
theorem regWrite_getElem (i : Int) (v : Cell) (s : State) (j : Fin 16) :
    (regWrite i v s).x[j] = if (j.val : Int) = i then v else s.x[j] := by
  unfold regWrite
  rcases regIndex_cases i with ⟨k, hk, h⟩ | ⟨ho, h⟩
  · rw [h]
    simp only [State.setReg_getElem, Fin.ext_iff]
    split <;> split <;> first | rfl | omega
  · rw [h]
    have : (j.val : Int) ≠ i := by omega
    simp [this]

/-- `RegWrite` changes the register file and the events only. -/
theorem regWrite_frame (i : Int) (v : Cell) (s : State) :
    (regWrite i v s).mem = s.mem ∧ (regWrite i v s).pc = s.pc ∧ (regWrite i v s).ir = s.ir ∧
      (regWrite i v s).phase = s.phase ∧ (regWrite i v s).diag = s.diag ++ regWriteEvents i := by
  unfold regWrite regWriteEvents
  rcases regIndex_cases i with ⟨k, -, h⟩ | ⟨-, h⟩ <;> simp [h]

/-- `RegWrite`, on the register file, depends on the register file alone. -/
theorem regWrite_x_congr (i : Int) (v : Cell) {s t : State} (h : s.x = t.x) : (regWrite i v s).x = (regWrite i v t).x := by
  unfold regWrite
  rcases regIndex_cases i with ⟨k, -, e⟩ | ⟨-, e⟩ <;> simp [e, h]

/-- `MemRead` in range reads the cell and changes nothing. -/
theorem memRead_in_range {a : Nat} (h : a < 256) (s : State) : memRead (a : Int) s = (s.mem.read a, s) := by
  simp [memRead, memIndex_of_nat h]

/-- `MemRead` out of range answers `"00"` and raises its event. -/
theorem memRead_out_of_range {a : Int} (h : a < 0 ∨ 255 < a) (s : State) :
    memRead a s = (Cell.zeros, s.raise (.outOfRangeAddress .mem .read a)) := by
  rcases memIndex_cases a with ⟨k, hk, e, -⟩ | ⟨-, e⟩
  · omega
  · simp [memRead, e]

/-- `MemWrite` in range writes the cell and changes nothing else. -/
theorem memWrite_in_range {a : Nat} (h : a < 256) (v : Cell) (s : State) : memWrite (a : Int) v s = s.setMem a v := by
  simp [memWrite, memIndex_of_nat h]

/-- `MemWrite` out of range raises its event and writes nothing. -/
theorem memWrite_out_of_range {a : Int} (h : a < 0 ∨ 255 < a) (v : Cell) (s : State) :
    memWrite a v s = s.raise (.outOfRangeAddress .mem .write a) := by
  rcases memIndex_cases a with ⟨k, hk, e, -⟩ | ⟨-, e⟩
  · omega
  · simp [memWrite, e]

/-- `MemRead` changes nothing but the events. -/
theorem memRead_frame (a : Int) (s : State) :
    (memRead a s).2.x = s.x ∧ (memRead a s).2.mem = s.mem ∧ (memRead a s).2.pc = s.pc ∧ (memRead a s).2.ir = s.ir ∧
      (memRead a s).2.phase = s.phase := by
  unfold memRead
  rcases memIndex_cases a with ⟨k, -, -, e⟩ | ⟨-, e⟩ <;> simp [e]

/-- What `RegRead` answers is a cell that can be held. -/
theorem regOperand_wellFormed {s : State} (h : ∀ k : Fin 16, s.x[k].WellFormed) (i : Int) : (regOperand i s).WellFormed := by
  unfold regOperand regRead
  rcases regIndex_cases i with ⟨k, -, e⟩ | ⟨-, e⟩
  · simpa [e] using h k
  · simp [e, Cell.zeros]

/-- What `MemRead` answers is a cell that can be held. -/
theorem memRead_wellFormed {s : State} (h : s.mem.WellFormed) (a : Int) : (memRead a s).1.WellFormed := by
  unfold memRead
  rcases memIndex_cases a with ⟨k, -, -, e⟩ | ⟨-, e⟩
  · simpa [e] using Memory.read_wellFormed h k
  · simp [e, Cell.zeros]

end Sys2Proof.Machine
end

