-- ==== Sys2Proof/Laws/ControlUnit.lean ====
section
/-! SUPPORT. What each control-unit operation and each ALU operation does, said once over the operand values and the events of
their reads (spec 43_control_unit.md, 41_hex_codec_integer_alu.md R107, 42_float_codec_alu.md R130). -/

namespace Sys2Proof.Machine

/-- The state after a register operand was read: its events appended. -/
def afterRead (i : Int) (s : State) : State := { s with diag := s.diag ++ regReadEvents i }

@[simp] theorem afterRead_x (i : Int) (s : State) : (afterRead i s).x = s.x := rfl
@[simp] theorem afterRead_mem (i : Int) (s : State) : (afterRead i s).mem = s.mem := rfl
@[simp] theorem afterRead_pc (i : Int) (s : State) : (afterRead i s).pc = s.pc := rfl
@[simp] theorem afterRead_ir (i : Int) (s : State) : (afterRead i s).ir = s.ir := rfl
@[simp] theorem afterRead_phase (i : Int) (s : State) : (afterRead i s).phase = s.phase := rfl
@[simp] theorem afterRead_diag (i : Int) (s : State) : (afterRead i s).diag = s.diag ++ regReadEvents i := rfl

theorem regRead_eq_afterRead (i : Int) (s : State) : regRead i s = (regOperand i s, afterRead i s) := regRead_eq i s

theorem cuLoad_eq (reg : Int) {a : Nat} (h : a < 256) (s : State) : cuLoad reg (a : Int) s = regWrite reg (s.mem.read a) s := by
  simp [cuLoad, memRead_in_range h]

theorem cuStore_eq (reg : Int) {a : Nat} (h : a < 256) (s : State) :
    cuStore reg (a : Int) s = (afterRead reg s).setMem a (regOperand reg s) := by
  simp [cuStore, regRead_eq_afterRead, memWrite_in_range h]

theorem cuMove_eq (src dst : Int) (s : State) : cuMove src dst s = regWrite dst (regOperand src s) (afterRead src s) := by
  simp [cuMove, regRead_eq_afterRead]

/-- Register 0 is always in range: reading it raises nothing (R146). -/
theorem regOperand_zero (s : State) : regOperand 0 s = s.x[0] := rfl

theorem regReadEvents_zero : regReadEvents 0 = [] := rfl

theorem cuJump_eq (how : Config.JumpCompare) (r : Int) (s : State) :
    cuJump how r s =
      if jumpTaken how (regOperand r s) s.x[0] then
        { afterRead r s with pc := BitVec.ofNat 32 (hexToInt (regOperand r s)) }
      else afterRead r s := by
  have h : afterRead 0 (afterRead r s) = afterRead r s := by
    apply State.eq_of_fields <;> simp [regReadEvents_zero]
  simp only [cuJump, regRead_eq_afterRead, regOperand_zero, afterRead_x, h]

/-- The integer adder, over the two operand values and the state after both reads. -/
theorem addIntegers_eq (a b d : Int) (s : State) :
    addIntegers a b d s =
      if !isValidHex (regOperand a s) || !isValidHex (regOperand b s) then
        (afterRead b (afterRead a s)).raise
          (.invalidHexDigit (!isValidHex (regOperand a s)) (!isValidHex (regOperand b s)))
      else if 2 ^ 32 ≤ hexToInt (regOperand a s) + hexToInt (regOperand b s) then
        (afterRead b (afterRead a s)).raise (.cellOverflow (hexToInt (regOperand a s) + hexToInt (regOperand b s)))
      else regWrite d (intToHex (hexToInt (regOperand a s) + hexToInt (regOperand b s))) (afterRead b (afterRead a s)) := by
  simp only [addIntegers, regRead_eq_afterRead, regOperand_congr b (afterRead_x a s)]

/-- The exact sum of the two operands' floats, in units of `1/256` (42_float_codec_alu.md R124). -/
def floatSum (a b : Int) (s : State) : Int := fval (fbyte (regOperand a s)) + fval (fbyte (regOperand b s))

/-- The float adder, over the exact sum and the state after both reads. -/
theorem addFloats_eq (a b d : Int) (s : State) :
    addFloats a b d s =
      if floatSum a b s = 0 then regWrite d Cell.zeros (afterRead b (afterRead a s))
      else regWrite d (byteToHex2 (fencode (floatSum a b s)).1)
        (raiseUnrepresentable (fencode (floatSum a b s)).2 (afterRead b (afterRead a s))) := by
  simp only [addFloats, regRead_eq_afterRead, regOperand_congr b (afterRead_x a s), floatSum]
  rfl

/-- `UnrepresentableFloat` is an event and nothing else. -/
theorem raiseUnrepresentable_frame (e : Option Int) (s : State) :
    (raiseUnrepresentable e s).x = s.x ∧ (raiseUnrepresentable e s).mem = s.mem ∧ (raiseUnrepresentable e s).pc = s.pc ∧
      (raiseUnrepresentable e s).ir = s.ir ∧ (raiseUnrepresentable e s).phase = s.phase := by
  cases e <;> simp [raiseUnrepresentable]

end Sys2Proof.Machine
end

