-- ==== Sys2Proof/Laws/HexCodec.lean ====
section
/-! SUPPORT. The laws of the hex codec's parts (spec 41_hex_codec_integer_alu.md R100 to R104). -/

namespace Sys2Proof.Machine

/-- "`digit(c) -> Int` in 0..15" (R101). -/
theorem digit_lt (c : CharCode) : digit c < 16 := by
  unfold digit
  split
  · omega
  · split
    · omega
    · split <;> omega

/-- A character that is no hex digit counts as 0 (R101). -/
theorem digit_of_not_isHexChar {c : CharCode} (h : isHexChar c = false) : digit c = 0 := by
  simp only [isHexChar, Bool.or_eq_false_iff, Bool.and_eq_false_iff, decide_eq_false_iff_not] at h
  unfold digit
  rw [if_neg (by omega), if_neg (by omega), if_neg (by omega)]

/-- The digit of a written digit. -/
theorem digit_hexchar {d : Nat} (h : d < 16) : digit (hexchar d) = d := by
  have : ∀ k : Fin 16, digit (hexchar k.val) = k.val := by decide
  exact this ⟨d, h⟩

/-- A written digit is a hex character. -/
theorem isHexChar_hexchar {d : Nat} (h : d < 16) : isHexChar (hexchar d) = true := by
  have : ∀ k : Fin 16, isHexChar (hexchar k.val) = true := by decide
  exact this ⟨d, h⟩

theorem hexValue_nil : hexValue [] = 0 := rfl

/-- One more character to the right is one more digit (R103). -/
theorem hexValue_append_singleton (cs : List CharCode) (c : CharCode) : hexValue (cs ++ [c]) = 16 * hexValue cs + digit c := by
  simp [hexValue, List.foldl_append]

/-- "The result is in 0..16^n - 1" (R103). -/
theorem hexValue_lt (cs : List CharCode) : hexValue cs < 16 ^ cs.length := by
  have go : ∀ (cs : List CharCode) (v k : Nat), v < 16 ^ k →
      cs.foldl (fun v c => 16 * v + digit c) v < 16 ^ (k + cs.length) := by
    intro cs
    induction cs with
    | nil => intro v k h; simpa using h
    | cons c rest ih =>
      intro v k h
      have hd := digit_lt c
      have := ih (16 * v + digit c) (k + 1) (by rw [Nat.pow_succ]; omega)
      simpa [Nat.add_assoc, Nat.add_comm, Nat.add_left_comm] using this
  have := go cs 0 0 (by simp)
  simpa [hexValue] using this

/-- A cell's number is below `2^32` (R103). -/
theorem hexToInt_lt {c : Cell} (h : c.WellFormed) : hexToInt c < 2 ^ 32 := by
  have h1 := hexValue_lt c.chars
  have h2 : 16 ^ c.chars.length ≤ 16 ^ 8 := Nat.pow_le_pow_right (by omega) h
  have : (16 : Nat) ^ 8 = 2 ^ 32 := by decide
  unfold hexToInt
  omega

/-- A numeral has at most the digits it is given room for. -/
theorem hexNumeral_length_le (k n : Nat) : (hexNumeral k n).length ≤ k := by
  induction k generalizing n with
  | zero => simp [hexNumeral]
  | succ k ih =>
    simp only [hexNumeral]
    split
    · simp
    · simpa using ih (n / 16)

/-- The written number is a cell that can be held (R104). -/
theorem intToHex_wellFormed (n : Nat) : (intToHex n).WellFormed := hexNumeral_length_le 8 n

/-- The float result is a cell that can be held (42_float_codec_alu.md R129). -/
theorem byteToHex2_wellFormed (b : Byte) : (byteToHex2 b).WellFormed := by simp [byteToHex2]

end Sys2Proof.Machine
end

