-- ==== Sys2Proof/Laws/PerInstr.lean ====
section
/-! SUPPORT. A statement about every instruction as syntax, one lemma per constructor: its encoding is one cell of eight characters
that begins with its opcode (spec 30_encoding.md R70, R77). -/

namespace Sys2Proof.Laws.OneCell

/-- The word of an instruction is one full cell, and its first character is the opcode. -/
def Statement (i : Instr) : Prop := (encode i).len = 8 ∧ (encode i).WellFormed ∧ (encode i).slot 0 = i.opcode

theorem load (f : Fields) : Statement (.load f) := ⟨rfl, Nat.le_refl 8, rfl⟩
theorem store (f : Fields) : Statement (.store f) := ⟨rfl, Nat.le_refl 8, rfl⟩
theorem addInt (f : Fields) : Statement (.addInt f) := ⟨rfl, Nat.le_refl 8, rfl⟩
theorem jump (f : Fields) : Statement (.jump f) := ⟨rfl, Nat.le_refl 8, rfl⟩
theorem halt (f : Fields) : Statement (.halt f) := ⟨rfl, Nat.le_refl 8, rfl⟩

end Sys2Proof.Laws.OneCell
end

