-- ==== Sys2Proof/Laws/Run.lean ====
section
/-! SUPPORT. Runs of the machine, one step at a time. -/

namespace Sys2Proof.Machine

/-- A run of any machine, its first step taken. -/
theorem run_succ_of_step (M : Host.Core) (k : Nat) {s t : M.State} (h : M.step s = .next t) : M.run (k + 1) s = M.run k t := by
  have hr : M.run (k + 1) s =
      (match M.step s with | .next u => M.run k u | .fault r => .fault r | .refused r => .refused r) := rfl
  rw [hr, h]

/-- A run of this machine, its first step taken. -/
theorem core_run_succ (k : Nat) {s t : State} (h : step s = .next t) :
    Host.Core.run core (k + 1) s = Host.Core.run core k t := run_succ_of_step core k h

theorem core_run_zero (s : State) : Host.Core.run core 0 s = .next s := rfl

/-- The driver's run, its first step taken (44_instruction_cycle.md R167). -/
theorem drive_succ (k : Nat) {s t : State} (h : step s = .next t) :
    drive (k + 1) s = if t.haltNoticed then .next t else drive k t := by
  simp only [drive, h]

end Sys2Proof.Machine
end

