-- ==== Sys2Proof/Laws/Step.lean ====
section
/-! SUPPORT. What one step can do, said once (spec 44_instruction_cycle.md R160 to R165). -/

namespace Sys2Proof.Machine

/-- The state in which the execute part of a step runs, field by field (R160, R161). -/
theorem stepEntry_eq (s : State) :
    stepEntry s =
      { s with ir := fetchedCell s, pc := s.pc + 1#32, phase := .decoded, diag := fetchEvents s } := by
  unfold stepEntry fetch fetchedCell fetchEvents
  by_cases h : s.pc.toNat < 256
  · simp [memRead_in_range h, h, decodePhase, State.beginCommand]
  · have h' : ((s.pc.toNat : Int) < 0 ∨ 255 < (s.pc.toNat : Int)) := by omega
    simp [memRead_out_of_range h', h, decodePhase, State.beginCommand, State.raise]

/-- Every instruction answers a next state (R94, R160). -/
theorem exec_answers_next (i : Instr) (s : State) : ∃ t, exec i s = .next t := by
  cases i <;> exact ⟨_, rfl⟩

/-- So does the execute part, the invalid opcode included (R165). -/
theorem executeDecoded_answers_next (d : Decoded) (s : State) : ∃ t, executeDecoded d s = .next t := by
  cases d with
  | instruction i => exact exec_answers_next i s
  | invalidOpcode c => exact ⟨_, rfl⟩

/-- One step, inverted: it answers a next state exactly from Ready, and that state is what the execute part leaves, in Ready. -/
theorem step_eq_next_iff (s t : State) :
    step s = .next t ↔ s.phase = .ready ∧
      ∃ u, executeDecoded (decode (fetchedCell s)) (stepEntry s) = .next u ∧ t = { u with phase := .ready } := by
  have hir : (stepEntry s).ir = fetchedCell s := by rw [stepEntry_eq]
  unfold step runNextStep
  rw [hir]
  by_cases hp : s.phase = .ready
  · obtain ⟨u, hu⟩ := executeDecoded_answers_next (decode (fetchedCell s)) (stepEntry s)
    simp only [hp, if_true, hu, stepExit, true_and, Host.Outcome.next.injEq]
    constructor
    · rintro rfl; exact ⟨u, rfl, rfl⟩
    · rintro ⟨v, rfl, rfl⟩; rfl
  · simp [hp]

/-- The execute part changes neither `ir` nor the phase, whatever was decoded (R166). -/
theorem executeDecoded_frame {d : Decoded} {s t : State} (h : executeDecoded d s = .next t) :
    t.ir = s.ir ∧ t.phase = s.phase := by
  cases d with
  | invalidOpcode c =>
    simp only [executeDecoded, Host.Outcome.next.injEq] at h
    subst h
    simp [invalidInstruction]
  | instruction i =>
    cases i with
    | load f =>
      simp only [executeDecoded, exec, execLoad, Host.Outcome.next.injEq] at h
      subst h
      have h1 := regWrite_frame f.r (memRead (effectiveAddress f) s).1 (memRead (effectiveAddress f) s).2
      have h2 := memRead_frame (effectiveAddress f) s
      exact ⟨h1.2.2.1.trans h2.2.2.2.1, h1.2.2.2.1.trans h2.2.2.2.2⟩
    | store f =>
      simp only [executeDecoded, exec, execStore, Host.Outcome.next.injEq] at h
      subst h
      unfold cuStore memWrite
      rcases memIndex_cases (effectiveAddress f) with ⟨k, -, -, e⟩ | ⟨-, e⟩ <;>
        simp [e, regRead_eq_afterRead]
    | addInt f =>
      simp only [executeDecoded, exec, execAddInt, Host.Outcome.next.injEq] at h
      subst h
      rw [addIntegers_eq]
      split
      · simp
      · split
        · simp
        · have h1 := regWrite_frame f.t (intToHex (hexToInt (regOperand f.r s) + hexToInt (regOperand f.s s)))
            (afterRead f.s (afterRead f.r s))
          exact ⟨h1.2.2.1, h1.2.2.2.1⟩
    | jump f =>
      simp only [executeDecoded, exec, execJump, Host.Outcome.next.injEq] at h
      subst h
      rw [cuJump_eq]
      split <;> simp
    | halt f =>
      simp only [executeDecoded, exec, execHalt, Host.Outcome.next.injEq] at h
      subst h
      simp [cuHalt]

end Sys2Proof.Machine
end

