-- ==== Sys2Proof/Tests/Slice0.lean ====
section
/-! SUPPORT. Tests: expected values from spec/95_test_vectors.md, whose vectors were derived from the rules by hand, and a witness for
every statement that has hypotheses. -/

namespace Sys2Proof.Tests

open Sys2Proof.Machine

/-- A cell literal. -/
def c (t : String) : Cell := Cell.ofString t

/-- Reset with registers and memory cells set, as the vectors' start states say. -/
def start (pc : PcWord) (regs : List (Fin 16 × String)) (cells : List (Nat × String)) : State :=
  let s := regs.foldl (fun s r => s.setReg r.1 (c r.2)) (State.resetAt pc)
  cells.foldl (fun s m => s.setMem m.1 (c m.2)) s

/-- A check on the state an outcome answers, false where it answers none. -/
def after (o : Host.Outcome State Fault Refusal) (p : State → Bool) : Bool :=
  match o with
  | .next t => p t
  | .fault _ => false
  | .refused _ => false

/-! ### WellFormed refuses -/

theorem test_wf_refuses_r_below : ¬ (Instr.load ⟨-49, 0, 0, 0, 0⟩).WellFormed := by decide
theorem test_wf_refuses_r_above : ¬ (Instr.store ⟨208, 0, 0, 0, 0⟩).WellFormed := by decide
theorem test_wf_refuses_s_below : ¬ (Instr.addInt ⟨0, -49, 0, 0, 0⟩).WellFormed := by decide
theorem test_wf_refuses_s_above : ¬ (Instr.addInt ⟨0, 208, 0, 0, 0⟩).WellFormed := by decide
theorem test_wf_refuses_t_below : ¬ (Instr.addInt ⟨0, 0, -49, 0, 0⟩).WellFormed := by decide
theorem test_wf_refuses_t_above : ¬ (Instr.jump ⟨0, 0, 208, 0, 0⟩).WellFormed := by decide
theorem test_wf_refuses_address : ¬ (Instr.load ⟨0, 0, 0, 256, 0⟩).WellFormed := by decide
theorem test_wf_refuses_immediate : ¬ (Instr.halt ⟨0, 0, 0, 0, 256⟩).WellFormed := by decide
theorem test_cell_wf_refuses_nine : ¬ (c "123456789").WellFormed := by decide
theorem test_memory_wf_refuses_unsorted : ¬ (Memory.mk [(2, c "1"), (1, c "1")]).WellFormed := by decide
theorem test_memory_wf_refuses_zeros : ¬ (Memory.mk [(2, c "00")]).WellFormed := by decide
theorem test_memory_wf_refuses_256 : ¬ (Memory.mk [(256, c "1")]).WellFormed := by decide

/-! ### Decode: words written out from the encoding of 30_encoding.md R70, R72 (95_test_vectors.md, table Decode) -/

/-- `L:;<abAB`. -/
theorem test_decode_load : decodeTableWord 64 0x4C3A3B3C61624142 = some (.load ⟨10, 11, 12, 171, 171⟩) := by decide
/-- `S?00FE7f`. -/
theorem test_decode_store : decodeTableWord 64 0x533F303046453766 = some (.store ⟨15, 0, 0, 254, 127⟩) := by decide
/-- `A2340000`. -/
theorem test_decode_add : decodeTableWord 64 0x4132333430303030 = some (.addInt ⟨2, 3, 4, 0, 0⟩) := by decide
/-- `J2005000`. -/
theorem test_decode_jump : decodeTableWord 64 0x4A32303035303030 = some (.jump ⟨2, 0, 0, 80, 0⟩) := by decide
/-- `H1234567`. -/
theorem test_decode_halt : decodeTableWord 64 0x4831323334353637 = some (.halt ⟨1, 2, 3, 69, 103⟩) := by decide
/-- `LA/ G1zz`. -/
theorem test_decode_bad_characters : decode (c "LA/ G1zz") = .instruction (.load ⟨17, -1, -16, 1, 0⟩) := by decide
/-- The one-character cell `H` and the five-character cell `L102H`. -/
theorem test_decode_short : decode (c "H") = .instruction (.halt ⟨-48, -48, -48, 0, 0⟩) ∧ decode (c "L102H") = .instruction (.load ⟨1, 0, 2, 0, 0⟩) := by decide
theorem test_decode_invalid : decode (c "00") = .invalidOpcode 0x30#8 ∧ decode (c "") = .invalidOpcode 0x00#8 ∧
    decode (c "l1001000") = .invalidOpcode 0x6C#8 := by decide
theorem test_encode_load : encode (.load ⟨1, 0, 0, 16, 0⟩) = c "L1001000" := by decide
theorem test_view_of_word : (c "L1002000").view = 0x4C31303032303030#64 ∧ Cell.ofView 0x4C31303032303030#64 = c "L1002000" := by decide

/-! ### The hex codec (table Hex codec) -/

theorem test_hexToInt : hexToInt (c "2a") = 42 ∧ hexToInt (c "ffffffff") = 4294967295 ∧ hexToInt (c "") = 0 ∧ hexToInt (c "1G") = 16 ∧
    hexToInt (c "g1") = 1 ∧ hexToInt (c "L1001000") = 0x1001000 := by decide
theorem test_isValidHex : isValidHex (c "2f") = true ∧ isValidHex (c "0G") = false ∧ isValidHex (c "") = true := by decide
theorem test_intToHex : intToHex 0 = c "0" ∧ intToHex 7 = c "7" ∧ intToHex 16 = c "10" ∧ intToHex 510 = c "1FE" ∧
    intToHex 4294967295 = c "FFFFFFFF" := by decide

/-! ### The instructions, one step each -/

/-- V-L1. -/
theorem test_load : after (step (start 10 [] [(10, "L1001000"), (0x10, "2F")]))
    (fun t => t.x[1] = c "2F" && t.pc = 11 && t.diag = []) = true := by decide
/-- V-L3: the hex letter `A` names no register. -/
theorem test_load_out_of_range : after (step (start 10 [] [(10, "LA001000"), (0x10, "2F")]))
    (fun t => t.x = State.reset.x && t.diag = [.outOfRangeAddress .reg .write 17]) = true := by decide
/-- V-S4: the store overwrites its own cell and the step is not affected. -/
theorem test_store_own_cell : after (step (start 10 [(1, "H0000000")] [(10, "S1000A00")]))
    (fun t => t.mem.read 10 = c "H0000000" && t.ir = c "S1000A00" && t.pc = 11 && t.diag = []) = true := by decide
/-- V-S2: a refused read stores `"00"`. -/
theorem test_store_default : after (step (start 10 [] [(10, "SA002000"), (0x20, "77")]))
    (fun t => t.mem.read 0x20 = c "00" && t.diag = [.outOfRangeAddress .reg .read 17]) = true := by decide
/-- V-A8: source and destination the same, the sum wider than two digits. -/
theorem test_add_same_register : after (step (start 10 [(1, "80")] [(10, "A1110000")]))
    (fun t => t.x[1] = c "100" && t.diag = []) = true := by decide
/-- V-A6: a sum of `2^32` is not written. -/
theorem test_add_overflow : after (step (start 10 [(1, "FFFFFFFF"), (2, "1"), (3, "55")] [(10, "A1230000")]))
    (fun t => t.x[3] = c "55" && t.diag = [.cellOverflow 4294967296]) = true := by decide
/-- V-J1. -/
theorem test_jump_taken : after (step (start 12 [(0, "0E"), (1, "0E")] [(12, "J1000000")])) (fun t => t.pc = 14 && t.diag = []) = true := by decide
/-- V-J2: the cells differ although their numbers do not. -/
theorem test_jump_not_taken : after (step (start 12 [(0, "0E"), (1, "E")] [(12, "J1000000")])) (fun t => t.pc = 13 && t.diag = []) = true := by decide
/-- V-H1. -/
theorem test_halt : after (step (start 10 [] [(10, "H0000000")])) (fun t => t.pc = 11 && t.phase = .ready && t.diag = [.haltNotice]) = true := by decide
/-- V-H2: a one-character word. -/
theorem test_halt_short : after (step (start 10 [] [(10, "H")])) (fun t => t.pc = 11 && t.diag = [.haltNotice]) = true := by decide
/-- V-X2: the reset cell is an invalid opcode. -/
theorem test_invalid : after (step State.reset) (fun t => t.ir = c "00" && t.pc = 11 && t.diag = [.invalidOpcode 0x30#8]) = true := by decide
/-- V-X6: the fetch at `2^32 - 1`. -/
theorem test_fetch_beyond : after (step (start 4294967295 [] []))
    (fun t => t.pc = 0 && t.ir = c "00" && t.diag = [.outOfRangeAddress .mem .read 4294967295, .invalidOpcode 0x30#8]) = true := by decide
/-- The word of a table row runs as the first instruction after reset. -/
theorem test_withFetchWord : after (step (State.reset.withFetchWord 64 0x4830303030303030)) (fun t => t.diag = [.haltNotice]) = true := by decide

/-! ### The float codec and adder (tables Float decode, Float encode, Float add) -/

theorem test_fval : fval 0x58#8 = 256 ∧ fval 0x80#8 = 0 ∧ fval 0x01#8 = 1 ∧ fval 0x3A#8 = 80 ∧ fval 0xFF#8 = -1920 := by decide
theorem test_fencode : fencode 848 = (0x6D#8, none) ∧ fencode 7 = (0x00#8, some (-1)) ∧ fencode 2048 = (0x00#8, some 8) ∧
    fencode (-512) = (0xE8#8, none) ∧ fencode 31 = (0x1F#8, none) := by decide
/-- V-F1. -/
theorem test_addFloats : after (perform (.aluExecute 1 1 2 3) (start 10 [(1, "58"), (2, "58")] []))
    (fun t => t.x[3] = c "68" && t.diag = []) = true := by decide
/-- V-F6. -/
theorem test_addFloats_underflow : after (perform (.aluExecute 1 1 2 3) (start 10 [(1, "01"), (2, "01")] []))
    (fun t => t.x[3] = c "00" && t.diag = [.unrepresentableFloat (-2)]) = true := by decide
/-- V-F18: operand cells that are not two hex digits. -/
theorem test_addFloats_operands : after (perform (.aluExecute 1 1 2 3) (start 10 [(1, "158"), (2, "zz")] []))
    (fun t => t.x[3] = c "58" && t.diag = []) = true := by decide

/-! ### The ports (table Ports) -/

/-- V-P1. -/
theorem test_getRegister : replyTo (.getRegister 16) State.reset = .cell (c "00") ∧
    after (perform (.getRegister 16) State.reset) (fun t => t.diag = [.outOfRangeAddress .reg .read 16]) = true := by decide
/-- V-P2. -/
theorem test_memoryWrite : after (perform (.memoryWrite 256 (c "AB")) State.reset)
    (fun t => t.mem = State.reset.mem && t.diag = [.outOfRangeAddress .mem .write 256]) = true := by decide
/-- V-P3. -/
theorem test_aluExecute_tag : after (perform (.aluExecute 2 1 2 3) State.reset)
    (fun t => t.x = State.reset.x && t.diag = [.invalidOperationTag 2]) = true := by decide
/-- V-P5. -/
theorem test_move : after (perform (.move 17 3) (start 10 [(3, "55")] []))
    (fun t => t.x[3] = c "00" && t.diag = [.outOfRangeAddress .reg .read 17]) = true := by decide
/-- V-P8. -/
theorem test_setProgramCounter : after (perform (.setProgramCounter 0) State.reset)
    (fun t => replyTo .getProgramCounter t = .counter 0) = true := by decide
/-- The image of two tokens from address 0. -/
theorem test_bulkLoad : after (bulkLoad [c "03", c "L1002000"] State.reset)
    (fun t => t.mem.read 0 = c "03" && t.mem.read 1 = c "L1002000" && t.mem.read 2 = c "00") = true := by decide

/-! ### Witnesses: each statement's hypotheses are met, at the boundaries where a statement has clauses -/

theorem witness_DecodeInvertsEncode : (Instr.load ⟨-48, 207, 0, 255, 0⟩).WellFormed ∧ (Instr.store ⟨207, -48, 207, 0, 255⟩).WellFormed ∧
    (Instr.addInt ⟨15, 15, 15, 255, 255⟩).WellFormed ∧ (Instr.jump ⟨0, 0, 0, 0, 0⟩).WellFormed ∧ (Instr.halt ⟨-48, -48, -48, 0, 0⟩).WellFormed := by
  decide

theorem witness_DecodedInstructionIsWellFormed : decode (c "S?00FE7f") = .instruction (.store ⟨15, 0, 0, 254, 127⟩) := by decide

theorem witness_OpcodeCharacterDecides : decode (c "J") = .instruction (.jump ⟨-48, -48, -48, 0, 0⟩) ∧ decode (c "h") = .invalidOpcode 0x68#8 := by
  decide

theorem witness_TableWordFieldPlaces : 2 ^ 64 - 1 < 2 ^ 64 ∧ decodeTableWord 64 (2 ^ 64 - 1) = none ∧
    decodeTableWord 64 0x48FFFFFFFFFFFFFF = some (.halt ⟨207, 207, 207, 0, 0⟩) := by decide

theorem witness_UnusedFieldsAreIgnored :
    (Fields.mk 3 1 2 9 7).r = (Fields.mk 3 1 2 9 8).r ∧ (Fields.mk 3 1 2 9 7).s = (Fields.mk 3 1 2 9 8).s ∧
      (Fields.mk 3 1 2 9 7).t = (Fields.mk 3 1 2 9 8).t ∧ (Fields.mk 3 1 2 9 7).address = (Fields.mk 3 1 2 9 8).address := by
  decide

theorem witness_HexCharacterClasses : isHexChar 0x47#8 = false ∧ isHexChar 0x2F#8 = false ∧ isHexChar 0x66#8 = true ∧
    isValidHex (c "0fA9") = true ∧ isValidHex (c "0fG9") = false ∧ isValidHex (c "") = true := by decide

theorem witness_IntToHexIsShortestNumeral : 4294967295 < 2 ^ 32 ∧ (hexchar 9).toNat = 0x39 ∧ (hexchar 10).toNat = 0x41 ∧ (hexchar 15).toNat = 0x46 ∧
    (intToHex 16).len = 2 ∧ 1 < (intToHex 16).len := by decide

theorem witness_HexRoundTrip : (c "0a").WellFormed ∧ isValidHex (c "0a") = true ∧ intToHex (hexToInt (c "0a")) ≠ c "0a" ∧
    (c "FFFFFFFF").WellFormed ∧ isValidHex (c "FFFFFFFF") = true ∧ intToHex (hexToInt (c "FFFFFFFF")) = c "FFFFFFFF" ∧ intToHex (hexToInt (c "0")) = c "0" := by
  decide

theorem witness_RegReadIsBoundsChecked : (regRead 15 (start 0 [(15, "7")] [])).1 = c "7" ∧ (regRead 16 State.reset).2.diag = [.outOfRangeAddress .reg .read 16] ∧
    (regRead (-1) State.reset).2.diag = [.outOfRangeAddress .reg .read (-1)] ∧ (regRead 0 State.reset).2.diag = [] := by decide

theorem witness_RegWriteIsBoundsChecked : (regWrite 15 (c "7") State.reset).x[15] = c "7" ∧ (regWrite 0 (c "7") State.reset).x[0] = c "7" ∧
    (regWrite 16 (c "7") State.reset).diag = [.outOfRangeAddress .reg .write 16] ∧
    (regWrite (-1) (c "7") State.reset).diag = [.outOfRangeAddress .reg .write (-1)] := by decide

theorem witness_MemReadIsBoundsChecked : (memRead 255 (start 0 [] [(255, "7")])).1 = c "7" ∧ (memRead 0 (start 0 [] [(0, "8")])).1 = c "8" ∧
    (memRead 256 State.reset).2.diag = [.outOfRangeAddress .mem .read 256] ∧ (memRead (-1) State.reset).2.diag = [.outOfRangeAddress .mem .read (-1)] := by
  decide

theorem witness_MemWriteIsBoundsChecked : (start 0 [] [(255, "7"), (3, "1")]).mem.WellFormed ∧ (memWrite 255 (c "7") State.reset).mem.read 255 = c "7" ∧
    (memWrite 0 (c "7") State.reset).mem.read 0 = c "7" ∧ (memWrite 256 (c "7") State.reset).diag = [.outOfRangeAddress .mem .write 256] ∧
    (memWrite (-1) (c "7") State.reset).diag = [.outOfRangeAddress .mem .write (-1)] := by decide

theorem witness_CanonicalMemoryIsUnique : ∃ m n : Memory, m.WellFormed ∧ n.WellFormed ∧ m.entries ≠ [] ∧ ∀ a, m.read a = n.read a :=
  ⟨⟨[(3, c "1")]⟩, ⟨[(3, c "1")]⟩, by decide, by decide, by decide, fun _ => rfl⟩

theorem witness_CellEqualityIsLengthAndSlots : (c "12345678").WellFormed ∧ (c "").WellFormed ∧ (c "7").len ≤ 1 ∧ (c "12345678").len ≤ 8 := by decide

theorem witness_LoadCopiesTheCell : (Fields.mk 15 0 0 255 0).WellFormed ∧ (Fields.mk 16 0 0 0 0).WellFormed ∧ (Fields.mk (-1) 0 0 0 0).WellFormed := by decide

theorem witness_StoreCopiesTheCell : (Fields.mk 15 0 0 255 0).WellFormed ∧ (Fields.mk 16 0 0 255 0).WellFormed ∧
    (start 0 [(15, "7")] [(255, "9")]).mem.WellFormed := by decide

/-- Each clause of the statement of `A`: the write, both refusals, and the destination out of range. -/
theorem witness_AddWritesTheShortestSum :
    after (exec (.addInt ⟨1, 2, 15, 0, 0⟩) (start 0 [(1, "FFFFFFFE"), (2, "1")] [])) (fun t => t.x[15] = c "FFFFFFFF") = true ∧
    after (exec (.addInt ⟨1, 2, 3, 0, 0⟩) (start 0 [(1, "0G"), (2, "04")] [])) (fun t => t.diag = [.invalidHexDigit true false]) = true ∧
    after (exec (.addInt ⟨1, 2, 3, 0, 0⟩) (start 0 [(1, "FFFFFFFF"), (2, "FFFFFFFF")] [])) (fun t => t.diag = [.cellOverflow 8589934590]) = true ∧
    after (exec (.addInt ⟨1, 2, 16, 0, 0⟩) (start 0 [(1, "1"), (2, "2")] [])) (fun t => t.diag = [.outOfRangeAddress .reg .write 16]) = true := by
  decide

theorem witness_JumpGoesToTheRegister : regOperand 1 (start 0 [(0, "FFFFFFFF"), (1, "FFFFFFFF")] []) = (start 0 [(0, "FFFFFFFF"), (1, "FFFFFFFF")] []).x[0] ∧
    (regOperand 1 (start 0 [(0, "FFFFFFFF"), (1, "FFFFFFFF")] [])).WellFormed ∧
    regOperand 16 (start 0 [(0, "05")] []) ≠ (start 0 [(0, "05")] []).x[0] := by decide

/-- Equal numbers in unequal cells, at the longest target; unequal numbers; equal cells; a register out of range. -/
theorem witness_NumericComparisonJumpsMore :
    hexToInt (regOperand 1 (start 0 [(0, "ffffffff"), (1, "FFFFFFFF")] [])) = hexToInt (start 0 [(0, "ffffffff"), (1, "FFFFFFFF")] []).x[0] ∧
    regOperand 1 (start 0 [(0, "ffffffff"), (1, "FFFFFFFF")] []) ≠ (start 0 [(0, "ffffffff"), (1, "FFFFFFFF")] []).x[0] ∧
    (regOperand 1 (start 0 [(0, "ffffffff"), (1, "FFFFFFFF")] [])).WellFormed ∧
    hexToInt (regOperand 1 (start 0 [(1, "E")] [])) ≠ hexToInt (start 0 [(1, "E")] []).x[0] ∧ regOperand 1 State.reset = State.reset.x[0] ∧
    (cuJump .numeric 16 State.reset).diag = [.outOfRangeAddress .reg .read 16] := by decide

theorem witness_StepRunsTheDecodedInstruction : (start 255 [] [(255, "H")]).phase = .ready ∧ (start 255 [] [(255, "H")]).pc.toNat < 256 ∧
    decode ((start 255 [] [(255, "H")]).mem.read 255) = .instruction (.halt ⟨-48, -48, -48, 0, 0⟩) := by decide

theorem witness_StepIsTotalFromReady : State.reset.phase = .ready ∧ (decodePhase State.reset).phase ≠ .ready := by decide

theorem witness_InvalidWordIsSteppedOver : (start 255 [] []).phase = .ready ∧ (fetchedCell (start 255 [] [])).slot 0 ∉ (c "LSAJH").chars ∧
    (start 256 [] []).phase = .ready ∧ (fetchedCell (start 256 [] [])).slot 0 ∉ (c "LSAJH").chars := by decide

theorem witness_FetchBeyondMemory : (start 256 [] []).phase = .ready ∧ 256 ≤ (start 256 [] []).pc.toNat ∧ 256 ≤ (start 4294967295 [] []).pc.toNat := by decide

theorem witness_BeyondMemoryOnlyCounts : (start 256 [] []).phase = .ready ∧ 256 ≤ (start 256 [] []).pc.toNat ∧ (start 256 [] []).pc.toNat + 2 < 2 ^ 32 ∧
    256 ≤ (start 4294967294 [] []).pc.toNat ∧ (start 4294967294 [] []).pc.toNat + 1 < 2 ^ 32 ∧
    after (step (start 256 [] [])) (fun t => t.ir = c "00" && t.diag = [.outOfRangeAddress .mem .read 256, .invalidOpcode 0x30#8]) = true := by
  decide

/-- A step that writes a register, one that writes memory, one that moves `pc`. -/
theorem witness_StepWritesByOpcode :
    after (step (start 10 [] [(10, "L1001000"), (0x10, "2F")])) (fun t => t.x[1] ≠ State.reset.x[1]) = true ∧
    after (step (start 10 [(1, "9")] [(10, "S100FF00")])) (fun t => t.mem.read 255 ≠ c "00") = true ∧
    after (step (start 10 [] [(10, "J0000000")])) (fun t => t.pc ≠ 11) = true := by decide

theorem witness_AtMostThreeEventsPerStep : after (step (start 10 [] [(10, "AABC0000")])) (fun t => t.diag.length = 3) = true ∧
    after (step (start 256 [] [])) (fun t => t.diag.length = 2) = true := by decide

theorem witness_HaltNoticeExactlyAfterH : after (step (start 10 [] [(10, "H")])) (fun t => t.haltNoticed) = true ∧
    after (step State.reset) (fun t => !t.haltNoticed) = true := by decide

/-- The store at 10 into cell 11 and the fetch there in the next step. -/
theorem witness_StoredCellIsFetched : (start 10 [(5, "H0000000")] [(10, "S5000B00")]).mem.WellFormed ∧
    decode ((start 10 [(5, "H0000000")] [(10, "S5000B00")]).mem.read 10) = .instruction (.store ⟨5, 0, 0, 11, 0⟩) ∧
    after (step (start 10 [(5, "H0000000")] [(10, "S5000B00")])) (fun t => t.pc.toNat = 11 && after (step t) (fun u => u.ir = c "H0000000")) = true := by decide

theorem witness_PhasesArePassedInOrder : State.reset.phase = .ready ∧ after (executeDecoded (decode (stepEntry State.reset).ir) (stepEntry State.reset)) (fun u => u.phase = .decoded) = true := by decide

theorem witness_StepKeepsWellFormed : (start 10 [(1, "FFFFFFFE"), (2, "1")] [(10, "A1230000")]).WellFormed ∧
    after (step (start 10 [(1, "FFFFFFFE"), (2, "1")] [(10, "A1230000")])) (fun t => t.x[3] = c "FFFFFFFF") = true := by decide

/-- The fields of `0xAD` (R120: sign 1, exponent 2, mantissa 13), and mantissa 7 beside 8 (R123). -/
theorem witness_FloatDecodeFormula : fsign 0xAD#8 = 1 ∧ fexponent 0xAD#8 = 2 ∧ fmantissa 0xAD#8 = 13 ∧ fpack 1 2 13 = 0xAD#8 ∧
    fnormalised 0x08#8 = true ∧ fnormalised 0x07#8 = false := by decide

theorem witness_NormaliserReachesHalfToOne : normalise 1 = ⟨128, 8, -7⟩ ∧ normalise 3840 = ⟨3840, 12, 4⟩ := by decide

theorem witness_EncoderMatchesIntegerForm : fencodeK 3840 = (0x00#8, some 8) ∧ fencodeK (-3840) = (0x00#8, some 8) ∧ fencodeK 1 = (0x00#8, some (-3)) := by decide

/-- The boundaries of the two clauses: 7, 8, 2047, 2048. -/
theorem witness_EncodingTruncatesTowardZero : fencode 8 = (0x08#8, none) ∧ fencode (-2047) = (0xFF#8, none) ∧ fencode (-7) = (0x00#8, some (-1)) ∧
    fencode 2048 = (0x00#8, some 8) := by decide

theorem witness_NormalisedBytesRoundTrip : 8 ≤ fmantissa 0x08#8 ∧ fmantissa 0x17#8 = 7 ∧ fencode (fval 0x17#8) = (0x0E#8, none) := by decide

theorem witness_AddFloatsWritesTheEncodedSum : State.reset.phase = .ready ∧ fval (fbyte (c "58")) + fval (fbyte (c "D8")) = 0 ∧
    fval (fbyte (c "7F")) + fval (fbyte (c "88")) ≠ 0 := by decide

theorem witness_AluExecuteDispatchesOnTheTag : (2 : Int) ≠ 0 ∧ (2 : Int) ≠ 1 ∧ (-1 : Int) ≠ 0 ∧ (-1 : Int) ≠ 1 := by decide

theorem witness_CommandsRunInReadyOnly : State.reset.phase = .ready ∧ (decodePhase State.reset).phase ≠ .ready ∧ (c "12345678").WellFormed ∧
    ¬ (c "123456789").WellFormed ∧
    perform (.memoryWrite 0 (c "123456789")) State.reset = .refused (.nonCanonicalCell (c "123456789")) := by
  exact ⟨rfl, by decide, by decide, by decide, rfl⟩

theorem witness_ReadingPortsChangeNothing : State.reset.phase = .ready ∧ replyTo (.getRegister 15) (start 0 [(15, "7")] []) = .cell (c "7") ∧
    replyTo (.memoryRead 255) (start 0 [] [(255, "7")]) = .cell (c "7") ∧ replyTo (.memoryRead 256) State.reset = .cell (c "00") ∧
    replyTo (.getRegister (-1)) State.reset = .cell (c "00") := by decide

theorem witness_SetProgramCounterWritesPcAlone : State.reset.phase = .ready ∧
    after (perform (.setProgramCounter 4294967295) State.reset) (fun t => t.pc = 4294967295) = true := by decide

theorem witness_ResetPortForgetsEverything : (start 3 [(1, "7")] [(9, "8")]).phase = .ready ∧
    after (perform (.reset 0) (start 3 [(1, "7")] [(9, "8")])) (fun t => t.x[1] = c "00" && t.mem.read 9 = c "00" && t.pc = 0) = true := by decide

theorem witness_MemoryWritePort : State.reset.phase = .ready ∧ State.reset.mem.WellFormed ∧ (c "").WellFormed ∧
    after (perform (.memoryWrite 255 (c "")) State.reset) (fun t => t.mem.read 255 = c "") = true ∧
    after (perform (.memoryWrite (-1) (c "7")) State.reset) (fun t => t.diag = [.outOfRangeAddress .mem .write (-1)]) = true := by decide

theorem witness_MoveCopiesTheRegister : State.reset.phase = .ready ∧
    after (perform (.move 2 9) (start 0 [(2, "2F")] [])) (fun t => t.x[9] = c "2F" && t.diag = []) = true := by decide

theorem witness_PortsWriteOnlyTheirState : after (perform (.move 2 9) (start 0 [(2, "2F")] [])) (fun t => t.x[9] ≠ c "00") = true ∧
    after (perform (.memoryWrite 1 (c "7")) State.reset) (fun t => t.mem.read 1 ≠ c "00") = true := by decide

theorem witness_CommandsKeepWellFormed : (start 10 [(2, "2F")] [(9, "8")]).WellFormed ∧
    after (perform (.move 2 9) (start 10 [(2, "2F")] [(9, "8")])) (fun t => t.x[9] = c "2F") = true := by decide

/-- An image of `n + 1` tokens, the last one `"1"`. -/
def image (n : Nat) : List Cell := List.replicate n (c "00") ++ [c "1"]

/-- The boundaries of the clauses: no token, 256 tokens (the last cell is filled), 257 (the last token is refused, its cell unmoved). -/
theorem witness_BulkLoadFillsFromZero : State.reset.WellFormed ∧ (∀ n, ∀ t ∈ image n, t.WellFormed) ∧
    (image 255).length = 256 ∧ (image 256).length = 257 ∧
    after (bulkLoad [] State.reset) (fun t => t.diag = []) = true ∧
    after (bulkLoad (image 255) State.reset) (fun t => t.mem.read 255 = c "1" && t.diag = []) = true ∧
    after (bulkLoad (image 256) State.reset) (fun t => t.mem.read 255 = c "00" && t.diag = [.outOfRangeAddress .mem .write 256]) = true := by
  have len : ∀ n, (image n).length = n + 1 := fun n => by rw [image, List.length_append, List.length_replicate, List.length_singleton]
  refine ⟨by decide, ?_, len 255, len 256, by decide, by decide +kernel, by decide +kernel⟩
  intro n t ht
  rcases List.mem_append.mp ht with h | h
  · rw [List.eq_of_mem_replicate h]; decide
  · rw [List.mem_singleton.mp h]; decide

theorem witness_DriverStopsAtTheHaltNotice : (start 10 [] [(10, "H0000000")]).phase = .ready ∧
    after (drive 3 (start 10 [] [(10, "H0000000")])) (fun t => t.pc = 11 && t.haltNoticed) = true := by decide

/-- The examples of R121 and R129, an empty operand, a longer one and one that is no hexadecimal. -/
theorem witness_FloatCellConversions : fbyte (c "7") = 0x07#8 ∧ fbyte (c "") = 0x00#8 ∧ fbyte (c "68") = 0x68#8 ∧ fbyte (c "12345FaD") = 0xAD#8 ∧
    fbyte (c "G8") = 0x08#8 ∧ byteToHex2 0x68#8 = c "68" ∧ byteToHex2 0x08#8 = c "08" ∧ byteToHex2 0xAD#8 = c "AD" := by decide

/-- Each clause through the port: the write at the largest sum, the overflow, the failed check, the destination and the tags out of range. -/
theorem witness_AluPortAddsIntegersOrRejectsTheTag : State.reset.phase = .ready ∧
    after (perform (.aluExecute 0 1 2 15) (start 0 [(1, "FFFFFFFE"), (2, "1")] [])) (fun t => t.x[15] = c "FFFFFFFF" && t.diag = []) = true ∧
    after (perform (.aluExecute 0 1 2 3) (start 0 [(1, "FFFFFFFF"), (2, "1")] [])) (fun t => t.diag = [.cellOverflow 4294967296]) = true ∧
    after (perform (.aluExecute 0 1 2 3) (start 0 [(1, "0G"), (2, "04")] [])) (fun t => t.diag = [.invalidHexDigit true false]) = true ∧
    after (perform (.aluExecute 0 1 2 16) State.reset) (fun t => t.diag = [.outOfRangeAddress .reg .write 16]) = true ∧
    after (perform (.aluExecute 2 1 2 3) State.reset) (fun t => t.diag = [.invalidOperationTag 2]) = true ∧
    after (perform (.aluExecute (-1) 1 2 3) State.reset) (fun t => t.diag = [.invalidOperationTag (-1)]) = true := by decide

end Sys2Proof.Tests
end

/-! PROOFS. `J` under either value of the parameter `JUMP_COMPARE`: the condition, the two outcomes, the frame
(spec 00_scope.md R5, 43_control_unit.md R146). -/

namespace Sys2Proof.Machine

@[simp] theorem jumpTaken_cell_iff (c z : Cell) : jumpTaken .cell c z = true ↔ c = z := by
  simp [jumpTaken]

@[simp] theorem jumpTaken_numeric_iff (c z : Cell) : jumpTaken .numeric c z = true ↔ hexToInt c = hexToInt z := by
  simp [jumpTaken]

/-- Equal cells satisfy the condition whatever is compared (R146). -/
theorem jumpTaken_self (how : Config.JumpCompare) (c : Cell) : jumpTaken how c c = true := by
  cases how with
  | cell => exact (jumpTaken_cell_iff c c).mpr rfl
  | numeric => exact (jumpTaken_numeric_iff c c).mpr rfl

section
variable {how : Config.JumpCompare} {r : Int} {s : State}

theorem cuJump_of_taken (h : jumpTaken how (regOperand r s) s.x[0] = true) :
    cuJump how r s = { afterRead r s with pc := BitVec.ofNat 32 (hexToInt (regOperand r s)) } := by
  rw [cuJump_eq, if_pos h]

theorem cuJump_of_not_taken (h : ¬ jumpTaken how (regOperand r s) s.x[0] = true) : cuJump how r s = afterRead r s := by
  rw [cuJump_eq, if_neg h]

/-- The number of a cell of at most 8 characters fits `pc` whole (R146, R103). -/
theorem cuJump_pc_toNat_of_taken (h : jumpTaken how (regOperand r s) s.x[0] = true) (hc : (regOperand r s).WellFormed) :
    (cuJump how r s).pc.toNat = hexToInt (regOperand r s) := by
  rw [cuJump_of_taken h]
  exact Nat.mod_eq_of_lt (hexToInt_lt hc)

theorem cuJump_pc_of_not_taken (h : ¬ jumpTaken how (regOperand r s) s.x[0] = true) : (cuJump how r s).pc = s.pc := by
  rw [cuJump_of_not_taken h, afterRead_pc]

end

/-- Taken or not, `J` writes `pc` alone, and its events are those of its one register read (R146). -/
theorem cuJump_frame (how : Config.JumpCompare) (r : Int) (s : State) :
    (cuJump how r s).x = s.x ∧ (cuJump how r s).mem = s.mem ∧ (cuJump how r s).ir = s.ir ∧
      (cuJump how r s).phase = s.phase ∧ (cuJump how r s).diag = s.diag ++ regReadEvents r := by
  by_cases h : jumpTaken how (regOperand r s) s.x[0] = true
  · simp [cuJump_of_taken h]
  · simp [cuJump_of_not_taken h]

/-- On equal cells `J` has one effect under every value of `JUMP_COMPARE` (R5, R146). -/
theorem cuJump_congr_of_eq (how how' : Config.JumpCompare) {r : Int} {s : State} (h : regOperand r s = s.x[0]) :
    cuJump how r s = cuJump how' r s := by
  have taken (k : Config.JumpCompare) : jumpTaken k (regOperand r s) s.x[0] = true := h ▸ jumpTaken_self k _
  rw [cuJump_of_taken (taken how), cuJump_of_taken (taken how')]

/-- Settles O22: the two outcomes of the jump at the numeric condition, agreement on equal cells, and the frame. -/
theorem numericComparisonJumpsMore : Obligations.NumericComparisonJumpsMore := by
  intro r s
  refine ⟨fun heq hc => ?taken, fun hne => ?notTaken, fun hcell => ?agree, cuJump_frame .numeric r s⟩
  case taken => exact cuJump_pc_toNat_of_taken ((jumpTaken_numeric_iff _ _).mpr heq) hc
  case notTaken => exact cuJump_pc_of_not_taken (mt (jumpTaken_numeric_iff _ _).mp hne)
  case agree => exact cuJump_congr_of_eq .numeric .cell hcell

end Sys2Proof.Machine

section
/-! PROOFS. The cells a legal state holds, kept by every operation, by every step and by every command of the host
(spec 10_state.md R21, R24, R35; 45_host_ports.md R180, R184). -/

namespace Sys2Proof.Machine

theorem Cell.zeros_wellFormed : Cell.zeros.WellFormed := by decide

/-- A legal state but for its phase: what holds inside a step too, where the phase is not Ready. -/
structure State.StorageWellFormed (s : State) : Prop where
  regs : ∀ k : Fin 16, s.x[k].WellFormed
  mem : s.mem.WellFormed
  ir : s.ir.WellFormed

theorem State.wellFormed_iff (s : State) : s.WellFormed ↔ s.StorageWellFormed ∧ s.phase = .ready :=
  ⟨fun ⟨hx, hm, hi, hp⟩ => ⟨⟨hx, hm, hi⟩, hp⟩, fun ⟨⟨hx, hm, hi⟩, hp⟩ => ⟨hx, hm, hi, hp⟩⟩

/-- The state `t` differs from `s` in the register file and the events at most. -/
structure SameButRegisters (t s : State) : Prop where
  mem : t.mem = s.mem
  pc : t.pc = s.pc
  ir : t.ir = s.ir
  phase : t.phase = s.phase

theorem SameButRegisters.trans {u t s : State} (h : SameButRegisters u t) (h' : SameButRegisters t s) :
    SameButRegisters u s :=
  ⟨h.mem.trans h'.mem, h.pc.trans h'.pc, h.ir.trans h'.ir, h.phase.trans h'.phase⟩

/-! ### What leaves everything but registers and events as it was -/

theorem sameButRegisters_raise (d : Diag) (s : State) : SameButRegisters (s.raise d) s := ⟨rfl, rfl, rfl, rfl⟩

theorem sameButRegisters_afterRead (i : Int) (s : State) : SameButRegisters (afterRead i s) s := ⟨rfl, rfl, rfl, rfl⟩

theorem sameButRegisters_afterReads (a b : Int) (s : State) : SameButRegisters (afterRead b (afterRead a s)) s :=
  ⟨rfl, rfl, rfl, rfl⟩

theorem sameButRegisters_regWrite (i : Int) (v : Cell) (s : State) : SameButRegisters (regWrite i v s) s :=
  have ⟨hm, hp, hi, hf, _⟩ := regWrite_frame i v s
  ⟨hm, hp, hi, hf⟩

theorem sameButRegisters_raiseUnrepresentable (e : Option Int) (s : State) :
    SameButRegisters (raiseUnrepresentable e s) s :=
  have ⟨_, hm, hp, hi, hf⟩ := raiseUnrepresentable_frame e s
  ⟨hm, hp, hi, hf⟩

theorem sameButRegisters_cuMove (src dst : Int) (s : State) : SameButRegisters (cuMove src dst s) s := by
  rw [cuMove_eq]
  exact (sameButRegisters_regWrite ..).trans (sameButRegisters_afterRead src s)

theorem sameButRegisters_addIntegers (a b d : Int) (s : State) : SameButRegisters (addIntegers a b d s) s := by
  rw [addIntegers_eq]
  split
  case isTrue => exact (sameButRegisters_raise ..).trans (sameButRegisters_afterReads a b s)
  case isFalse =>
    split
    case isTrue => exact (sameButRegisters_raise ..).trans (sameButRegisters_afterReads a b s)
    case isFalse => exact (sameButRegisters_regWrite ..).trans (sameButRegisters_afterReads a b s)

theorem sameButRegisters_addFloats (a b d : Int) (s : State) : SameButRegisters (addFloats a b d s) s := by
  rw [addFloats_eq]
  split
  case isTrue => exact (sameButRegisters_regWrite ..).trans (sameButRegisters_afterReads a b s)
  case isFalse =>
    exact (sameButRegisters_regWrite ..).trans
      ((sameButRegisters_raiseUnrepresentable ..).trans (sameButRegisters_afterReads a b s))

theorem sameButRegisters_aluExecute (kind a b d : Int) (s : State) : SameButRegisters (aluExecute kind a b d s) s := by
  unfold aluExecute
  split
  case isTrue => exact sameButRegisters_addIntegers a b d s
  case isFalse =>
    split
    case isTrue => exact sameButRegisters_addFloats a b d s
    case isFalse => exact sameButRegisters_raise _ s

/-- `MemWrite` changes memory and the events only (40_storage_ports.md R93). -/
theorem memWrite_frame (a : Int) (v : Cell) (s : State) :
    (memWrite a v s).x = s.x ∧ (memWrite a v s).pc = s.pc ∧ (memWrite a v s).ir = s.ir ∧
      (memWrite a v s).phase = s.phase := by
  unfold memWrite
  rcases memIndex_cases a with ⟨k, -, -, e⟩ | ⟨-, e⟩ <;> simp [e]

/-! ### What keeps every cell within 8 characters and memory canonical -/

namespace State.StorageWellFormed

theorem of_eq {s t : State} (h : s.StorageWellFormed) (hx : t.x = s.x) (hm : t.mem = s.mem) (hi : t.ir = s.ir) :
    t.StorageWellFormed :=
  ⟨hx ▸ h.regs, hm ▸ h.mem, hi ▸ h.ir⟩

section
variable {s : State} (h : s.StorageWellFormed)
include h

theorem afterRead (i : Int) : (afterRead i s).StorageWellFormed := h.of_eq rfl rfl rfl

theorem raise (d : Diag) : (s.raise d).StorageWellFormed := h.of_eq rfl rfl rfl

theorem regRead (i : Int) : (regRead i s).2.StorageWellFormed := by
  rw [regRead_eq_afterRead]
  exact h.afterRead i

theorem memRead (a : Int) : (memRead a s).2.StorageWellFormed :=
  have ⟨hx, hm, _, hi, _⟩ := memRead_frame a s
  h.of_eq hx hm hi

theorem raiseUnrepresentable (e : Option Int) : (raiseUnrepresentable e s).StorageWellFormed :=
  have ⟨hx, hm, _, hi, _⟩ := raiseUnrepresentable_frame e s
  h.of_eq hx hm hi

theorem regWrite (i : Int) {v : Cell} (hv : v.WellFormed) : (regWrite i v s).StorageWellFormed where
  regs k := by
    rw [regWrite_getElem]
    split
    case isTrue => exact hv
    case isFalse => exact h.regs k
  mem := (sameButRegisters_regWrite i v s).mem ▸ h.mem
  ir := (sameButRegisters_regWrite i v s).ir ▸ h.ir

theorem memWrite (a : Int) {v : Cell} (hv : v.WellFormed) : (memWrite a v s).StorageWellFormed := by
  rcases memIndex_cases a with ⟨k, hk, rfl, -⟩ | ⟨ha, -⟩
  · rw [memWrite_in_range hk]
    exact ⟨h.regs, Memory.write_wellFormed h.mem hk hv, h.ir⟩
  · rw [memWrite_out_of_range ha]
    exact h.raise _

theorem cuLoad (reg a : Int) : (cuLoad reg a s).StorageWellFormed :=
  (h.memRead a).regWrite reg (memRead_wellFormed h.mem a)

theorem cuStore (reg a : Int) : (cuStore reg a s).StorageWellFormed :=
  (h.regRead reg).memWrite a (regOperand_wellFormed h.regs reg)

theorem cuMove (src dst : Int) : (cuMove src dst s).StorageWellFormed :=
  (h.regRead src).regWrite dst (regOperand_wellFormed h.regs src)

theorem cuJump (how : Config.JumpCompare) (r : Int) : (cuJump how r s).StorageWellFormed :=
  have ⟨hx, hm, hi, _⟩ := cuJump_frame how r s
  h.of_eq hx hm hi

theorem addIntegers (a b d : Int) : (addIntegers a b d s).StorageWellFormed := by
  have hread := (h.afterRead a).afterRead b
  rw [addIntegers_eq]
  split
  case isTrue => exact hread.raise _
  case isFalse =>
    split
    case isTrue => exact hread.raise _
    case isFalse => exact hread.regWrite d (intToHex_wellFormed _)

theorem addFloats (a b d : Int) : (addFloats a b d s).StorageWellFormed := by
  have hread := (h.afterRead a).afterRead b
  rw [addFloats_eq]
  split
  case isTrue => exact hread.regWrite d Cell.zeros_wellFormed
  case isFalse => exact (hread.raiseUnrepresentable _).regWrite d (byteToHex2_wellFormed _)

theorem aluExecute (kind a b d : Int) : (aluExecute kind a b d s).StorageWellFormed := by
  unfold Machine.aluExecute
  split
  case isTrue => exact h.addIntegers a b d
  case isFalse =>
    split
    case isTrue => exact h.addFloats a b d
    case isFalse => exact h.raise _

/-- Every arm of the dispatch keeps the cells legal. -/
theorem exec {i : Instr} {t : State} (ht : exec i s = .next t) : t.StorageWellFormed := by
  cases i with
  | load f => exact Host.Outcome.next.inj ht ▸ h.cuLoad f.r (effectiveAddress f)
  | store f => exact Host.Outcome.next.inj ht ▸ h.cuStore f.r (effectiveAddress f)
  | addInt f => exact Host.Outcome.next.inj ht ▸ h.addIntegers f.r f.s f.t
  | jump f => exact Host.Outcome.next.inj ht ▸ h.cuJump Config.jumpCompare f.r
  | halt f => exact Host.Outcome.next.inj ht ▸ h.raise .haltNotice

theorem executeDecoded {d : Decoded} {t : State} (ht : executeDecoded d s = .next t) : t.StorageWellFormed := by
  cases d with
  | instruction i => exact h.exec ht
  | invalidOpcode c => exact Host.Outcome.next.inj ht ▸ h.raise (.invalidOpcode c)

theorem fetchedCell : (fetchedCell s).WellFormed := by
  unfold Machine.fetchedCell
  split
  case isTrue => exact Memory.read_wellFormed h.mem _
  case isFalse => exact Cell.zeros_wellFormed

theorem stepEntry : (stepEntry s).StorageWellFormed := by
  rw [stepEntry_eq]
  exact ⟨h.regs, h.mem, h.fetchedCell⟩

end

end State.StorageWellFormed

/-- Settles O35: the execute part keeps the cells legal from the state after fetch and decode, and the step ends in Ready. -/
theorem stepKeepsWellFormed : Obligations.StepKeepsWellFormed := by
  intro s t hs ht
  obtain ⟨hcells, -⟩ := (State.wellFormed_iff s).mp hs
  obtain ⟨-, u, hu, rfl⟩ := (step_eq_next_iff s t).mp ht
  have hexec : u.StorageWellFormed := hcells.stepEntry.executeDecoded hu
  exact (State.wellFormed_iff _).mpr ⟨hexec.of_eq rfl rfl rfl, rfl⟩

/-! ### Reset (10_state.md R27, R40) -/

theorem State.resetAt_getElem (start : PcWord) (k : Fin 16) : (State.resetAt start).x[k] = Cell.zeros := by simp

theorem State.resetAt_wellFormed (start : PcWord) : (State.resetAt start).WellFormed :=
  (State.wellFormed_iff _).mpr
    ⟨{ regs := fun k => State.resetAt_getElem start k ▸ Cell.zeros_wellFormed
       mem := Memory.reset_wellFormed
       ir := Nat.zero_le 8 }, rfl⟩

/-- Settles O36. -/
theorem resetIsWellFormed : Obligations.ResetIsWellFormed :=
  ⟨State.resetAt_wellFormed, State.resetAt_wellFormed Config.pcStart⟩

/-! ### The commands of the host (45_host_ports.md R180, R189) -/

/-- A command answers a next state exactly from Ready, and that state is its effect with its own events (R180). -/
theorem perform_eq_next_iff (c : Command) (s t : State) :
    perform c s = .next t ↔ s.phase = .ready ∧ commandEffect c s.beginCommand = .next t := by
  unfold perform
  split
  case isTrue hp => simp [hp]
  case isFalse hp => simp [hp]

/-- The write port answers a next state only for a cell that can be held (R184). -/
theorem commandEffect_memoryWrite_eq_next_iff (a : Int) (v : Cell) (s t : State) :
    commandEffect (.memoryWrite a v) s = .next t ↔ v.WellFormed ∧ memWrite a v s = t := by
  simp only [commandEffect]
  split
  case isTrue hv => simp [hv]
  case isFalse hv => simp [hv]

/-- Every effect of a command keeps a legal state legal. -/
theorem commandEffect_wellFormed {c : Command} {s t : State} (hs : s.WellFormed) (ht : commandEffect c s = .next t) :
    t.WellFormed := by
  obtain ⟨hcells, hready⟩ := (State.wellFormed_iff s).mp hs
  cases c with
  | reset start => exact Host.Outcome.next.inj ht ▸ State.resetAt_wellFormed start
  | runNextStep => exact stepKeepsWellFormed s t hs ht
  | getProgramCounter => exact Host.Outcome.next.inj ht ▸ hs
  | setProgramCounter v =>
    obtain rfl := Host.Outcome.next.inj ht
    exact (State.wellFormed_iff _).mpr ⟨hcells.of_eq rfl rfl rfl, hready⟩
  | getRegister i =>
    obtain rfl := Host.Outcome.next.inj ht
    exact (State.wellFormed_iff _).mpr ⟨hcells.regRead i, by rw [regRead_eq_afterRead]; exact hready⟩
  | memoryRead a =>
    obtain rfl := Host.Outcome.next.inj ht
    obtain ⟨-, -, -, -, hphase⟩ := memRead_frame a s
    exact (State.wellFormed_iff _).mpr ⟨hcells.memRead a, hphase.trans hready⟩
  | memoryWrite a v =>
    obtain ⟨hv, rfl⟩ := (commandEffect_memoryWrite_eq_next_iff a v s t).mp ht
    obtain ⟨-, -, -, hphase⟩ := memWrite_frame a v s
    exact (State.wellFormed_iff _).mpr ⟨hcells.memWrite a hv, hphase.trans hready⟩
  | move src dst =>
    obtain rfl := Host.Outcome.next.inj ht
    exact (State.wellFormed_iff _).mpr ⟨hcells.cuMove src dst, (sameButRegisters_cuMove src dst s).phase.trans hready⟩
  | aluExecute kind a b d =>
    obtain rfl := Host.Outcome.next.inj ht
    exact (State.wellFormed_iff _).mpr
      ⟨hcells.aluExecute kind a b d, (sameButRegisters_aluExecute kind a b d s).phase.trans hready⟩

/-- Settles O55: emptying the events keeps the state legal, and so does each command's effect. -/
theorem commandsKeepWellFormed : Obligations.CommandsKeepWellFormed := by
  intro c s t hs ht
  obtain ⟨-, heffect⟩ := (perform_eq_next_iff c s t).mp ht
  exact commandEffect_wellFormed (s := s.beginCommand) hs heffect

/-- Settles O54: the frame of each command that is neither `reset` nor a step. -/
theorem portsWriteOnlyTheirState : Obligations.PortsWriteOnlyTheirState := by
  intro c s t ht
  obtain ⟨-, heffect⟩ := (perform_eq_next_iff c s t).mp ht
  cases c with
  | reset start => simp
  | runNextStep => simp
  | getProgramCounter =>
    obtain rfl := Host.Outcome.next.inj heffect
    simp
  | setProgramCounter v =>
    obtain rfl := Host.Outcome.next.inj heffect
    simp
  | getRegister i =>
    obtain rfl := Host.Outcome.next.inj heffect
    simp [regRead_eq_afterRead]
  | memoryRead a =>
    obtain rfl := Host.Outcome.next.inj heffect
    obtain ⟨hx, hm, hp, hi, -⟩ := memRead_frame a s.beginCommand
    simp [hx, hm, hp, hi]
  | memoryWrite a v =>
    obtain ⟨-, rfl⟩ := (commandEffect_memoryWrite_eq_next_iff a v _ t).mp heffect
    obtain ⟨hx, hp, hi, -⟩ := memWrite_frame a v s.beginCommand
    simp [hx, hp, hi]
  | move src dst =>
    obtain rfl := Host.Outcome.next.inj heffect
    have hsame := sameButRegisters_cuMove src dst s.beginCommand
    simp [hsame.mem, hsame.pc, hsame.ir]
  | aluExecute kind a b d =>
    obtain rfl := Host.Outcome.next.inj heffect
    have hsame := sameButRegisters_aluExecute kind a b d s.beginCommand
    simp [hsame.mem, hsame.pc, hsame.ir]

end Sys2Proof.Machine
end

section
/-! PROOFS. The slots of a cell: what they say about it (spec 10_state.md R21), what they are after reset (R27), and what they
are in the cell of a 64-bit table word (R22; 30_encoding.md R70). -/

namespace Sys2Proof

/-- Below the length a slot is the character there. -/
theorem Cell.slot_of_lt {c : Cell} {i : Nat} (h : i < c.chars.length) : c.slot i = c.chars[i] := by
  rw [Cell.slot, List.getD_eq_getElem?_getD, List.getElem?_eq_getElem h, Option.getD_some]

/-- At and above the length a slot is `0x00`. -/
theorem Cell.slot_of_len_le {c : Cell} {i : Nat} (h : c.len ≤ i) : c.slot i = 0x00#8 := by
  rw [Cell.slot, List.getD_eq_getElem?_getD, List.getElem?_eq_none h, Option.getD_none]

/-- The canonical pair of R21 determines the string. -/
theorem Cell.eq_of_len_of_slots {c d : Cell} (hlen : c.len = d.len) (h : ∀ i < c.len, c.slot i = d.slot i) : c = d := by
  have hchars : c.chars = d.chars := List.ext_getElem hlen fun i hc hd => by
    rw [← Cell.slot_of_lt hc, ← Cell.slot_of_lt hd]
    exact h i hc
  cases c
  cases d
  exact congrArg Cell.mk hchars

/-- Settles O16. -/
theorem cellEqualityIsLengthAndSlots : Obligations.CellEqualityIsLengthAndSlots := by
  intro c d hc _
  refine ⟨⟨?toPair, ?fromPair⟩, fun i => Cell.slot_of_len_le⟩
  case toPair =>
    rintro rfl
    exact ⟨rfl, fun _ _ => rfl⟩
  case fromPair =>
    rintro ⟨hlen, hslots⟩
    exact Cell.eq_of_len_of_slots hlen fun i hi => hslots i (Nat.lt_of_lt_of_le hi hc)

namespace Machine

/-- Settles O37. -/
theorem resetRegistersHoldZeros : Obligations.ResetRegistersHoldZeros := by
  intro k
  have hk : State.reset.x[k] = Cell.zeros := State.resetAt_getElem Config.pcStart k
  have hread : regRead (k.val : Int) State.reset = (State.reset.x[k], State.reset) := by
    simp only [regRead, regIndex_of_fin]
  rw [hread, hk]
  exact ⟨rfl, rfl, rfl, fun i hi => Cell.slot_of_len_le hi, rfl⟩

/-- Settles O38. -/
theorem resetState : Obligations.ResetState :=
  ⟨rfl, fun start => ⟨State.resetAt_getElem start, Memory.read_reset, rfl, rfl, rfl, rfl⟩⟩

end Machine

open Sys2Proof.Machine

/-! ### Decoding a table word -/

/-- On an opcode character decode answers that instruction, with the fields of the word (R74, R77). -/
theorem decode_of_opcode {w : Cell} {i : Instr} (hop : i.opcode = w.slot 0) (hf : i.fields = decodeFields w) :
    decode w = .instruction i := by
  unfold decode
  rw [← hop, ← hf]
  cases i <;> rfl

/-- Decode inverted: the instruction of the word's opcode character and fields (R74 to R77). -/
theorem decode_eq_instruction_iff (w : Cell) (i : Instr) :
    decode w = .instruction i ↔ i.opcode = w.slot 0 ∧ i.fields = decodeFields w := by
  refine ⟨fun h => ?_, fun ⟨hop, hf⟩ => decode_of_opcode hop hf⟩
  have answers {j : Instr} (hj : Decoded.instruction j = .instruction i) (hop : w.slot 0 = j.opcode)
      (hf : j.fields = decodeFields w) : i.opcode = w.slot 0 ∧ i.fields = decodeFields w :=
    Decoded.instruction.inj hj ▸ ⟨hop.symm, hf⟩
  simp only [decode] at h
  split at h
  case isTrue hop => exact answers h hop rfl
  case isFalse =>
    split at h
    case isTrue hop => exact answers h hop rfl
    case isFalse =>
      split at h
      case isTrue hop => exact answers h hop rfl
      case isFalse =>
        split at h
        case isTrue hop => exact answers h hop rfl
        case isFalse =>
          split at h
          case isTrue hop => exact answers h hop rfl
          case isFalse => exact Decoded.noConfusion h

/-- Which characters are opcodes (R77). -/
theorem exists_instr_of_opcode_iff (ch : CharCode) (f : Fields) :
    (∃ i : Instr, i.opcode = ch ∧ i.fields = f) ↔ ch.toNat ∈ [0x4C, 0x53, 0x41, 0x4A, 0x48] := by
  constructor
  · rintro ⟨i, rfl, -⟩
    cases i <;> simp [Instr.opcode]
  · intro h
    have eq_of_toNat {c : CharCode} (hc : ch.toNat = c.toNat) : c = ch := (BitVec.eq_of_toNat_eq hc).symm
    simp only [List.mem_cons, List.not_mem_nil, or_false] at h
    rcases h with h | h | h | h | h
    · exact ⟨.load f, eq_of_toNat h, rfl⟩
    · exact ⟨.store f, eq_of_toNat h, rfl⟩
    · exact ⟨.addInt f, eq_of_toNat h, rfl⟩
    · exact ⟨.jump f, eq_of_toNat h, rfl⟩
    · exact ⟨.halt f, eq_of_toNat h, rfl⟩

theorem decodeTableWord_eq_some_iff (nbits w : Nat) (i : Instr) :
    decodeTableWord nbits w = some i ↔
      i.opcode = (tableWordCell nbits w).slot 0 ∧ i.fields = decodeFields (tableWordCell nbits w) := by
  rw [← decode_eq_instruction_iff]
  unfold decodeTableWord
  cases decode (tableWordCell nbits w) <;> simp

/-- `ch[i] = v[63-8*i : 56-8*i]` (R22). -/
theorem Cell.slot_ofView (v : BitVec 64) {i : Nat} (h : i < 8) : (Cell.ofView v).slot i = v.extractLsb' (56 - 8 * i) 8 := by
  have hlen : i < (Cell.ofView v).chars.length := by
    simpa only [Cell.ofView, List.length_map, List.length_range] using h
  rw [Cell.slot_of_lt hlen]
  simp only [Cell.ofView, List.getElem_map, List.getElem_range]

/-- A slot of a 64-bit table word's cell is the byte the table numbers there. -/
theorem slot_tableWordCell {w : Nat} (hw : w < 2 ^ 64) {i : Nat} (hi : i < 8) :
    (tableWordCell 64 w).slot i = BitVec.ofNat 8 (w / 2 ^ (56 - 8 * i)) := by
  have hv : (BitVec.ofNat 64 w).toNat = w := by rw [BitVec.toNat_ofNat, Nat.mod_eq_of_lt hw]
  apply BitVec.eq_of_toNat_eq
  rw [tableWordCell, Nat.mod_eq_of_lt hw, Cell.slot_ofView _ hi, BitVec.extractLsb'_toNat, hv,
    Nat.shiftRight_eq_div_pow, BitVec.toNat_ofNat]

/-- Settles O4: each slot of the word's cell is a byte of the word, and decode reads the slots. -/
theorem tableWordFieldPlaces : Obligations.TableWordFieldPlaces := by
  intro w hw
  have hslot (i : Nat) (hi : i < 8) := slot_tableWordCell hw hi
  have htop : ((tableWordCell 64 w).slot 0).toNat = w / 2 ^ 56 := by
    rw [hslot 0 (by decide), BitVec.toNat_ofNat]
    omega
  constructor
  · simp only [decodeTableWord_eq_some_iff, exists_instr_of_opcode_iff, htop]
  · intro i hi
    obtain ⟨hop, hf⟩ := (decodeTableWord_eq_some_iff 64 w i).mp hi
    rw [hop, hf, htop]
    simp [decodeFields, decodeRegField, decodeByteField, hslot]

end Sys2Proof
end

section
/-! PROOFS. What one step leaves in `ir`, what a stored word leaves in memory, and the fetch of a stored cell
(spec 43_control_unit.md R141; 44_instruction_cycle.md R161, R166; 20_memory.md R62). -/

namespace Sys2Proof

open Sys2Proof.Machine

theorem decodeByteField_lt (hi lo : CharCode) : decodeByteField hi lo < 256 := by
  have hhi := digit_lt hi
  have hlo := digit_lt lo
  unfold decodeByteField
  omega

/-- The address of a decoded word is one of the 256 cells (30_encoding.md R76). -/
theorem address_lt_of_decode {w : Cell} {i : Instr} (h : decode w = .instruction i) : i.fields.address < 256 := by
  obtain ⟨-, hfields⟩ := (decode_eq_instruction_iff w i).mp h
  rw [hfields]
  exact decodeByteField_lt _ _

namespace Machine

theorem fetchedCell_of_lt {s : State} (h : s.pc.toNat < 256) : fetchedCell s = s.mem.read s.pc.toNat := if_pos h

/-- After a step `ir` is the word that the step fetched, whatever was executed: a store to the word's own cell included (R166). -/
theorem step_ir {s t : State} (h : step s = .next t) : t.ir = fetchedCell s := by
  obtain ⟨-, u, hu, rfl⟩ := (step_eq_next_iff s t).mp h
  calc u.ir = (stepEntry s).ir := (executeDecoded_frame hu).1
    _ = fetchedCell s := by rw [stepEntry_eq]

/-- The memory that a step on a store word leaves: one raw write of the register read before the step (R141). -/
theorem step_mem_of_store {s t : State} {f : Fields} (hf : decode (fetchedCell s) = .instruction (.store f))
    (h : step s = .next t) : t.mem = s.mem.write f.address (regOperand f.r s) := by
  obtain ⟨-, u, hu, rfl⟩ := (step_eq_next_iff s t).mp h
  have haddr : f.address < 256 := address_lt_of_decode hf
  rw [hf] at hu
  have hexec : u = cuStore f.r (f.address : Int) (stepEntry s) := (Host.Outcome.next.inj hu).symm
  have hmem : (stepEntry s).mem = s.mem := by rw [stepEntry_eq]
  have hx : (stepEntry s).x = s.x := by rw [stepEntry_eq]
  change u.mem = _
  rw [hexec, cuStore_eq f.r haddr, State.setMem_mem, afterRead_mem, hmem, regOperand_congr f.r hx]

/-- Settles O33: `ir` holds what the step fetched before it stored, and a later fetch reads the memory that the store wrote. -/
theorem storedCellIsFetched : Obligations.StoredCellIsFetched := by
  intro s t f hm hpc hf hst
  have hfetched : fetchedCell s = s.mem.read s.pc.toNat := fetchedCell_of_lt hpc
  refine ⟨(step_ir hst).trans hfetched, fun u v hu hupc huv => ?_⟩
  have haddr : f.address < 256 := address_lt_of_decode hf
  calc v.ir = fetchedCell u := step_ir huv
    _ = t.mem.read f.address := by rw [fetchedCell_of_lt (hupc ▸ haddr), hu, hupc]
    _ = (s.mem.write f.address (regOperand f.r s)).read f.address := by
      rw [step_mem_of_store (hfetched ▸ hf) hst]
    _ = regOperand f.r s := by rw [Memory.read_write hm, if_pos rfl]

end Machine

end Sys2Proof
end

section
/-! PROOFS. Decode and encode (spec 30_encoding.md R70 to R80): what a well-formed field becomes and is read back as, the range of
a decoded field, which characters are opcodes, and which fields an instruction reads. -/

namespace Sys2Proof

open Sys2Proof.Machine

/-! ### The fields of an encoded word (R70, R75, R76) -/

/-- The 256 codes of a character hold exactly the values of a register field. -/
theorem decodeRegField_encodeRegField {i : Int} (h : RegFieldWellFormed i) : decodeRegField (encodeRegField i) = i := by
  obtain ⟨hlo, hhi⟩ := h
  rw [decodeRegField, encodeRegField, BitVec.toNat_ofInt]
  omega

theorem decodeByteField_hexchar {n : Nat} (h : ByteFieldWellFormed n) :
    decodeByteField (hexchar (n / 16)) (hexchar (n % 16)) = n := by
  rw [decodeByteField, digit_hexchar (by omega), digit_hexchar (by omega)]
  exact Nat.div_add_mod n 16

/-- Each field is encoded in the characters that decode reads it from (R70). -/
theorem decodeFields_encode {i : Instr} (h : i.WellFormed) : decodeFields (encode i) = i.fields := by
  obtain ⟨hr, hs, ht, haddr, himm⟩ := h
  calc decodeFields (encode i)
      = { r := decodeRegField (encodeRegField i.fields.r)
          s := decodeRegField (encodeRegField i.fields.s)
          t := decodeRegField (encodeRegField i.fields.t)
          address := decodeByteField (hexchar (i.fields.address / 16)) (hexchar (i.fields.address % 16))
          immediate := decodeByteField (hexchar (i.fields.immediate / 16)) (hexchar (i.fields.immediate % 16)) } := rfl
    _ = i.fields := by
      rw [decodeRegField_encodeRegField hr, decodeRegField_encodeRegField hs, decodeRegField_encodeRegField ht,
        decodeByteField_hexchar haddr, decodeByteField_hexchar himm]

/-- The first character of an encoded word is the opcode (R77). -/
theorem slot_zero_encode (i : Instr) : (encode i).slot 0 = i.opcode := rfl

/-- Settles O1: the encoded word has the instruction's opcode character and its fields, and they determine what decode answers. -/
theorem decodeInvertsEncode : Obligations.DecodeInvertsEncode := fun i h =>
  decode_of_opcode (slot_zero_encode i).symm (decodeFields_encode h).symm

/-! ### The range of a decoded field (R75, R76) -/

theorem decodeRegField_wellFormed (c : CharCode) : RegFieldWellFormed (decodeRegField c) := by
  have hc : c.toNat < 256 := c.isLt
  unfold decodeRegField
  omega

theorem decodeByteField_wellFormed (hi lo : CharCode) : ByteFieldWellFormed (decodeByteField hi lo) :=
  Nat.le_of_lt_succ (decodeByteField_lt hi lo)

theorem decodeFields_wellFormed (w : Cell) : (decodeFields w).WellFormed :=
  ⟨decodeRegField_wellFormed _, decodeRegField_wellFormed _, decodeRegField_wellFormed _,
    decodeByteField_wellFormed _ _, decodeByteField_wellFormed _ _⟩

/-- Settles O2: a decoded instruction's fields are the word's, and those are in range for every cell. -/
theorem decodedInstructionIsWellFormed : Obligations.DecodedInstructionIsWellFormed := by
  intro w i h
  obtain ⟨-, hfields⟩ := (decode_eq_instruction_iff w i).mp h
  rw [Instr.WellFormed, hfields]
  exact decodeFields_wellFormed w

/-! ### The opcode character (R74, R77, R78, R80) -/

/-- A word whose first character is no instruction's opcode is rejected as that character (R80). -/
theorem decode_of_not_opcode {w : Cell} (h : ∀ i : Instr, i.opcode ≠ w.slot 0) : decode w = .invalidOpcode (w.slot 0) := by
  have hL : w.slot 0 ≠ 0x4C#8 := (h (.load (decodeFields w))).symm
  have hS : w.slot 0 ≠ 0x53#8 := (h (.store (decodeFields w))).symm
  have hA : w.slot 0 ≠ 0x41#8 := (h (.addInt (decodeFields w))).symm
  have hJ : w.slot 0 ≠ 0x4A#8 := (h (.jump (decodeFields w))).symm
  have hH : w.slot 0 ≠ 0x48#8 := (h (.halt (decodeFields w))).symm
  simp only [decode, if_neg hL, if_neg hS, if_neg hA, if_neg hJ, if_neg hH]

/-- Decode's rejection inverted, beside `decode_eq_instruction_iff`. -/
theorem decode_eq_invalidOpcode_iff (w : Cell) (ch : CharCode) :
    decode w = .invalidOpcode ch ↔ (∀ i : Instr, i.opcode ≠ w.slot 0) ∧ ch = w.slot 0 := by
  refine ⟨fun h => ?rejected, fun ⟨hno, hch⟩ => hch ▸ decode_of_not_opcode hno⟩
  have hno (i : Instr) : i.opcode ≠ w.slot 0 := fun hop => by
    have hchar := (exists_instr_of_opcode_iff (w.slot 0) i.fields).mp ⟨i, hop, rfl⟩
    obtain ⟨j, hj⟩ := (exists_instr_of_opcode_iff (w.slot 0) (decodeFields w)).mpr hchar
    exact Decoded.noConfusion (h.symm.trans ((decode_eq_instruction_iff w j).mpr hj))
  exact ⟨hno, Decoded.invalidOpcode.inj (h.symm.trans (decode_of_not_opcode hno))⟩

/-- The opcode characters by their ASCII codes (R72, R77). -/
theorem mem_opcodeCharacters_iff (ch : CharCode) :
    ch ∈ (Cell.ofString "LSAJH").chars ↔ ch.toNat ∈ [0x4C, 0x53, 0x41, 0x4A, 0x48] := by
  have hchars : (Cell.ofString "LSAJH").chars = [0x4C#8, 0x53#8, 0x41#8, 0x4A#8, 0x48#8] := by decide
  simp [hchars, ← BitVec.toNat_inj]

theorem exists_decode_eq_instruction_iff (w : Cell) :
    (∃ i, decode w = .instruction i) ↔ w.slot 0 ∈ (Cell.ofString "LSAJH").chars := by
  simp only [decode_eq_instruction_iff, exists_instr_of_opcode_iff, mem_opcodeCharacters_iff]

/-- Settles O3. -/
theorem opcodeCharacterDecides : Obligations.OpcodeCharacterDecides := fun w =>
  ⟨fun i => (decode_eq_instruction_iff w i).mp, fun ch h => ((decode_eq_invalidOpcode_iff w ch).mp h).2,
    exists_decode_eq_instruction_iff w⟩

/-- Settles O5: six closed words, each evaluated through the decoder. -/
theorem writtenOutWordsDecode : Obligations.WrittenOutWordsDecode := by
  unfold Obligations.WrittenOutWordsDecode
  decide

namespace Machine

/-! ### The fields that each instruction reads (R79) -/

theorem exec_load (f : Fields) (s : State) : exec (.load f) s = .next (cuLoad f.r f.address s) := rfl

theorem exec_store (f : Fields) (s : State) : exec (.store f) s = .next (cuStore f.r f.address s) := rfl

theorem exec_addInt (f : Fields) (s : State) : exec (.addInt f) s = .next (addIntegers f.r f.s f.t s) := rfl

theorem exec_jump (f : Fields) (s : State) : exec (.jump f) s = .next (cuJump Config.jumpCompare f.r s) := rfl

theorem exec_halt (f : Fields) (s : State) : exec (.halt f) s = .next (s.raise .haltNotice) := rfl

/-- Settles O6: each meaning is an operation on the fields that the instruction uses, and on no other. -/
theorem unusedFieldsAreIgnored : Obligations.UnusedFieldsAreIgnored := by
  intro f g s
  refine ⟨fun hr haddr => ⟨?load, ?store⟩, fun hr hs ht => ?addInt, fun hr => ?jump, ?halt⟩
  case load => rw [exec_load, exec_load, hr, haddr]
  case store => rw [exec_store, exec_store, hr, haddr]
  case addInt => rw [exec_addInt, exec_addInt, hr, hs, ht]
  case jump => rw [exec_jump, exec_jump, hr]
  case halt => rw [exec_halt, exec_halt]

end Machine

end Sys2Proof
end

section
/-! PROOFS. The four bounds-checked access primitives (spec 40_storage_ports.md R90 to R93): the register rules beside the memory
rules of `Laws.Ops`, and what each primitive does on either side of its bound. -/

namespace Sys2Proof.Machine

/-- The literal `"00"` of the spec is the cell that a refused read answers (30_encoding.md R72). -/
theorem Cell.ofString_zeros : Cell.ofString "00" = Cell.zeros := by decide

/-! ### The register primitives on either side of the bound -/

theorem regIndex_out_of_range {i : Int} (h : i < 0 ∨ 15 < i) : regIndex i = none := by
  rcases regIndex_cases i with ⟨k, hk, -⟩ | ⟨-, hnone⟩
  · omega
  · exact hnone

/-- `RegRead` in range reads the register and changes nothing. -/
theorem regRead_in_range (k : Fin 16) (s : State) : regRead (k.val : Int) s = (s.x[k], s) := by
  simp only [regRead, regIndex_of_fin]

/-- `RegRead` out of range answers `"00"` and raises its event. -/
theorem regRead_out_of_range {i : Int} (h : i < 0 ∨ 15 < i) (s : State) :
    regRead i s = (Cell.zeros, s.raise (.outOfRangeAddress .reg .read i)) := by
  simp only [regRead, regIndex_out_of_range h]

/-- `RegWrite` in range writes the register and changes nothing else. -/
theorem regWrite_in_range (k : Fin 16) (v : Cell) (s : State) : regWrite (k.val : Int) v s = s.setReg k v := by
  simp only [regWrite, regIndex_of_fin]

/-- `RegWrite` out of range raises its event and writes nothing. -/
theorem regWrite_out_of_range {i : Int} (h : i < 0 ∨ 15 < i) (v : Cell) (s : State) :
    regWrite i v s = s.raise (.outOfRangeAddress .reg .write i) := by
  simp only [regWrite, regIndex_out_of_range h]

/-- `RegWrite` appends its own events to the sequence. -/
theorem regWrite_diag (i : Int) (v : Cell) (s : State) : (regWrite i v s).diag = s.diag ++ regWriteEvents i := by
  obtain ⟨-, -, -, -, hdiag⟩ := regWrite_frame i v s
  exact hdiag

/-! ### The obligations -/

/-- Settles O14: in range the access is one raw write, whose read-after-write law needs the canonical form. -/
theorem memWriteIsBoundsChecked : Obligations.MemWriteIsBoundsChecked := by
  intro s v hm
  refine ⟨fun a ha => ?inRange, fun a ha => ?outOfRange⟩
  case inRange => exact ⟨s.setMem a v, memWrite_in_range ha v s, fun b => Memory.read_write hm a b v, rfl⟩
  case outOfRange => exact memWrite_out_of_range (by omega) v s

/-- Settles O11. -/
theorem regReadIsBoundsChecked : Obligations.RegReadIsBoundsChecked := by
  intro s
  refine ⟨fun k => regRead_in_range k s, fun i hi => ?outOfRange, fun i => ⟨rfl, regRead_state i s⟩⟩
  case outOfRange =>
    rw [Cell.ofString_zeros]
    exact regRead_out_of_range (by omega) s

/-- Settles O12: in range the access is one raw write of a register. -/
theorem regWriteIsBoundsChecked : Obligations.RegWriteIsBoundsChecked := by
  intro s v
  refine ⟨fun k => ?inRange, fun i hi => ?outOfRange, fun i => regWrite_diag i v s⟩
  case inRange => exact ⟨s.setReg k v, regWrite_in_range k v s, s.setReg_getElem k v, rfl⟩
  case outOfRange => exact regWrite_out_of_range (by omega) v s

/-- Settles O13. -/
theorem memReadIsBoundsChecked : Obligations.MemReadIsBoundsChecked := by
  intro s
  refine ⟨fun a ha => memRead_in_range ha s, fun a ha => ?outOfRange⟩
  case outOfRange =>
    rw [Cell.ofString_zeros]
    exact memRead_out_of_range (by omega) s

end Sys2Proof.Machine
end

section
/-! PROOFS. The hexadecimal codec (spec 41_hex_codec_integer_alu.md R100 to R106): the character classes, the value of a string,
the numeral of a number, and the one cell of each number that a round trip keeps. -/

namespace Sys2Proof.Machine

/-! ### The character classes and the digits (R100, R101) -/

theorem isHexChar_iff (c : CharCode) :
    isHexChar c = true ↔
      (0x30 ≤ c.toNat ∧ c.toNat ≤ 0x39) ∨ (0x41 ≤ c.toNat ∧ c.toNat ≤ 0x46) ∨ (0x61 ≤ c.toNat ∧ c.toNat ≤ 0x66) := by
  simp [isHexChar, or_assoc]

/-- The hex characters by their ASCII codes (R72, R100). -/
theorem mem_hexCharacters_iff (c : CharCode) :
    c ∈ (Cell.ofString "0123456789ABCDEFabcdef").chars ↔ isHexChar c = true := by
  have hchars : (Cell.ofString "0123456789ABCDEFabcdef").chars =
      [0x30#8, 0x31#8, 0x32#8, 0x33#8, 0x34#8, 0x35#8, 0x36#8, 0x37#8, 0x38#8, 0x39#8, 0x41#8, 0x42#8, 0x43#8, 0x44#8,
        0x45#8, 0x46#8, 0x61#8, 0x62#8, 0x63#8, 0x64#8, 0x65#8, 0x66#8] := by decide
  simp only [hchars, isHexChar_iff, List.mem_cons, List.not_mem_nil, or_false, ← BitVec.toNat_inj, BitVec.toNat_ofNat]
  omega

/-- The code of a written digit: `'0'` onward below ten, `'A'` onward from ten (R104). -/
theorem toNat_hexchar {d : Nat} (h : d < 16) : (hexchar d).toNat = if d < 10 then 0x30 + d else 0x41 + d - 10 := by
  unfold hexchar
  split <;> rw [BitVec.toNat_ofNat] <;> omega

/-- No digit is written in lower case (R104). -/
theorem not_lowerCase_hexchar {d : Nat} (h : d < 16) : ¬ (0x61 ≤ (hexchar d).toNat ∧ (hexchar d).toNat ≤ 0x66) := by
  rw [toNat_hexchar h]
  split <;> omega

/-- A hex character that is not in lower case is the one written for its digit (R101, R104). -/
theorem hexchar_digit {c : CharCode} (h : isHexChar c = true) (hup : ¬ (0x61 ≤ c.toNat ∧ c.toNat ≤ 0x66)) :
    hexchar (digit c) = c := by
  apply BitVec.eq_of_toNat_eq
  rw [toNat_hexchar (digit_lt c)]
  rcases (isHexChar_iff c).mp h with hdec | hupper | hlower
  · have hd : digit c = c.toNat - 0x30 := by rw [digit, if_pos hdec]
    rw [hd, if_pos (by omega)]
    omega
  · have hd : digit c = c.toNat - 0x41 + 10 := by rw [digit, if_neg (by omega), if_pos hupper]
    rw [hd, if_neg (by omega)]
    omega
  · exact absurd hlower hup

/-- A cell is valid exactly when each of its occupied slots holds a hex character (R102). -/
theorem isValidHex_iff (c : Cell) : isValidHex c = true ↔ ∀ i : Nat, i < c.len → isHexChar (c.slot i) = true := by
  rw [isValidHex, List.all_eq_true]
  constructor
  · intro h i hi
    rw [Cell.slot_of_lt hi]
    exact h _ (List.getElem_mem hi)
  · intro h ch hch
    obtain ⟨i, hi, rfl⟩ := List.getElem_of_mem hch
    rw [← Cell.slot_of_lt hi]
    exact h i hi

/-- Settles O7. -/
theorem hexCharacterClasses : Obligations.HexCharacterClasses :=
  ⟨by decide, by decide, fun c => ⟨(mem_hexCharacters_iff c).symm, digit_of_not_isHexChar⟩, isValidHex_iff, rfl⟩

/-! ### The value of a string (R103) -/

/-- The first character is the most significant digit. -/
theorem hexValue_cons (c : CharCode) (cs : List CharCode) : hexValue (c :: cs) = digit c * 16 ^ cs.length + hexValue cs := by
  have foldl_from (cs : List CharCode) (v : Nat) :
      cs.foldl (fun v c => 16 * v + digit c) v = v * 16 ^ cs.length + hexValue cs := by
    induction cs generalizing v with
    | nil => simp [hexValue]
    | cons c cs ih =>
      rw [hexValue, List.foldl_cons, List.foldl_cons, ih, ih (16 * 0 + digit c), List.length_cons, Nat.pow_succ,
        Nat.add_mul, Nat.mul_zero, Nat.zero_add, Nat.add_assoc, Nat.mul_comm 16 v, Nat.mul_assoc, Nat.mul_comm 16]
  rw [hexValue, List.foldl_cons, foldl_from, Nat.mul_zero, Nat.zero_add]

/-- Two strings of one length and one value have the same digits. -/
theorem map_digit_eq_of_hexValue_eq {cs ds : List CharCode} (hlen : cs.length = ds.length) (h : hexValue cs = hexValue ds) :
    cs.map digit = ds.map digit := by
  induction cs generalizing ds with
  | nil =>
    obtain rfl : ds = [] := List.length_eq_zero_iff.mp hlen.symm
    rfl
  | cons c cs ih =>
    obtain _ | ⟨d, ds⟩ := ds
    · exact absurd hlen (Nat.succ_ne_zero _)
    · have htail : cs.length = ds.length := Nat.succ.inj hlen
      have hcs := hexValue_lt cs
      have hds := hexValue_lt ds
      rw [← htail] at hds
      rw [hexValue_cons, hexValue_cons, ← htail] at h
      have hfirst : digit c = digit d := by
        have hpos : 0 < 16 ^ cs.length := Nat.pow_pos (by decide)
        have hdiv := congrArg (· / 16 ^ cs.length) h
        simpa only [Nat.mul_comm _ (16 ^ cs.length), Nat.mul_add_div hpos, Nat.div_eq_of_lt hcs, Nat.div_eq_of_lt hds,
          Nat.add_zero] using hdiv
      have hrest : hexValue cs = hexValue ds := by
        rw [hfirst] at h
        exact Nat.add_left_cancel h
      rw [List.map_cons, List.map_cons, hfirst, ih htail hrest]

theorem hexValue_eq_sum (cs : List CharCode) :
    hexValue cs = ((List.range cs.length).map fun i => digit (cs.getD i 0x00#8) * 16 ^ (cs.length - 1 - i)).sum := by
  induction cs with
  | nil => rfl
  | cons c cs ih =>
    rw [hexValue_cons, ih, List.length_cons, List.range_succ_eq_map, List.map_cons, List.sum_cons, List.map_map]
    have hplace (i : Nat) : cs.length - 1 - i = cs.length - (i + 1) := by omega
    simp [Function.comp_def, hplace]

/-- Settles O8. -/
theorem hexToIntIsPositional : Obligations.HexToIntIsPositional := fun c =>
  ⟨hexValue_eq_sum c.chars, hexValue_lt c.chars⟩

/-- A leading zero leaves one place less for the value. -/
theorem hexToInt_lt_of_leading_zero {c : Cell} (hne : c.chars ≠ []) (h : c.slot 0 = 0x30#8) :
    hexToInt c < 16 ^ (c.len - 1) := by
  obtain ⟨_ | ⟨ch, cs⟩⟩ := c
  · exact absurd rfl hne
  · obtain rfl : ch = 0x30#8 := h
    have hzero : digit 0x30#8 = 0 := by decide
    simpa [hexToInt, hexValue_cons, hzero, Cell.len] using hexValue_lt cs

/-- A first digit other than 0 gives the value all its places. -/
theorem le_hexToInt_of_leading_digit {c : Cell} (h : digit (c.slot 0) ≠ 0) : 16 ^ (c.len - 1) ≤ hexToInt c := by
  obtain ⟨_ | ⟨ch, cs⟩⟩ := c
  · exact absurd (by decide) h
  · rw [hexToInt, hexValue_cons]
    exact Nat.le_trans (Nat.le_mul_of_pos_left _ (Nat.pos_of_ne_zero h)) (Nat.le_add_right _ _)

/-! ### The numeral of a number (R104) -/

theorem hexNumeral_of_lt (k : Nat) {n : Nat} (h : n < 16) : hexNumeral (k + 1) n = [hexchar n] := if_pos h

theorem hexNumeral_of_le (k : Nat) {n : Nat} (h : 16 ≤ n) :
    hexNumeral (k + 1) n = hexNumeral k (n / 16) ++ [hexchar (n % 16)] := if_neg (Nat.not_lt.mpr h)

/-- A number other than 0 is written with as many characters as it has digits. -/
theorem hexNumeral_length_le_iff {k n : Nat} (j : Nat) (hne : n ≠ 0) (h : n < 16 ^ k) :
    (hexNumeral k n).length ≤ j ↔ n < 16 ^ j := by
  induction k generalizing n j with
  | zero => omega
  | succ k ih =>
    by_cases hlt : n < 16
    case pos =>
      rw [hexNumeral_of_lt k hlt, List.length_singleton]
      cases j with
      | zero => omega
      | succ j =>
        have hpos : 0 < 16 ^ j := Nat.pow_pos (by decide)
        rw [Nat.pow_succ]
        omega
    case neg =>
      have hge : 16 ≤ n := Nat.not_lt.mp hlt
      rw [hexNumeral_of_le k hge, List.length_append, List.length_singleton]
      cases j with
      | zero => omega
      | succ j =>
        have hrest := ih j (by omega : n / 16 ≠ 0) (by rw [Nat.pow_succ] at h; omega)
        rw [Nat.add_le_add_iff_right, hrest, Nat.pow_succ, Nat.div_lt_iff_lt_mul (by decide)]

/-- Each character of a numeral is the digit of its place (R104). -/
theorem hexNumeral_getElem (k n i : Nat) (hi : i < (hexNumeral k n).length) :
    (hexNumeral k n)[i] = hexchar (n / 16 ^ ((hexNumeral k n).length - 1 - i) % 16) := by
  induction k generalizing n i with
  | zero => exact absurd hi (Nat.not_lt_zero i)
  | succ k ih =>
    by_cases hlt : n < 16
    case pos =>
      simp only [hexNumeral_of_lt k hlt, List.length_singleton] at hi ⊢
      obtain rfl : i = 0 := Nat.lt_one_iff.mp hi
      rw [List.getElem_cons_zero, Nat.sub_self, Nat.pow_zero, Nat.div_one, Nat.mod_eq_of_lt hlt]
    case neg =>
      simp only [hexNumeral_of_le k (Nat.not_lt.mp hlt), List.length_append, List.length_singleton,
        Nat.add_sub_cancel] at hi ⊢
      by_cases hlast : i < (hexNumeral k (n / 16)).length
      · have hplace : (hexNumeral k (n / 16)).length - i = (hexNumeral k (n / 16)).length - 1 - i + 1 := by omega
        rw [List.getElem_append_left hlast, ih (n / 16) i hlast, Nat.div_div_eq_div_mul, hplace, Nat.pow_succ,
          Nat.mul_comm 16]
      · obtain rfl : i = (hexNumeral k (n / 16)).length := by omega
        rw [List.getElem_concat_length rfl, Nat.sub_self, Nat.pow_zero, Nat.div_one]

/-- A numeral with room enough reads back as its number. -/
theorem hexValue_hexNumeral {k n : Nat} (h : n < 16 ^ k) : hexValue (hexNumeral k n) = n := by
  induction k generalizing n with
  | zero =>
    obtain rfl : n = 0 := Nat.lt_one_iff.mp h
    rfl
  | succ k ih =>
    by_cases hlt : n < 16
    case pos =>
      rw [hexNumeral_of_lt k hlt, hexValue_cons, digit_hexchar hlt, hexValue_nil]
      simp
    case neg =>
      have hrest : n / 16 < 16 ^ k := by
        rw [Nat.pow_succ] at h
        omega
      rw [hexNumeral_of_le k (Nat.not_lt.mp hlt), hexValue_append_singleton, ih hrest,
        digit_hexchar (Nat.mod_lt n (by decide)), Nat.div_add_mod]

theorem intToHex_zero : intToHex 0 = Cell.ofString "0" := by decide

theorem intToHex_chars_ne_nil (n : Nat) : (intToHex n).chars ≠ [] := by
  change hexNumeral (7 + 1) n ≠ []
  by_cases h : n < 16
  · rw [hexNumeral_of_lt 7 h]
    exact List.cons_ne_nil _ _
  · rw [hexNumeral_of_le 7 (Nat.not_lt.mp h)]
    exact List.append_ne_nil_of_right_ne_nil _ (List.cons_ne_nil _ _)

theorem one_le_intToHex_len (n : Nat) : 1 ≤ (intToHex n).len :=
  List.length_pos_iff.mpr (intToHex_chars_ne_nil n)

/-- The numeral is the shortest: its length is within `k` exactly when the number has `k` digits (R104). -/
theorem intToHex_len_le_iff {n k : Nat} (h : n < 2 ^ 32) (hk : 1 ≤ k) : (intToHex n).len ≤ k ↔ n < 16 ^ k := by
  by_cases hne : n = 0
  case pos =>
    subst hne
    exact iff_of_true hk (Nat.pow_pos (by decide))
  case neg => exact hexNumeral_length_le_iff (k := 8) k hne h

theorem intToHex_slot {n i : Nat} (hi : i < (intToHex n).len) :
    (intToHex n).slot i = hexchar (n / 16 ^ ((intToHex n).len - 1 - i) % 16) :=
  (Cell.slot_of_lt hi).trans (hexNumeral_getElem 8 n i hi)

/-- Settles O9: the numeral's length by the digits of the number, its characters place by place. -/
theorem intToHexIsShortestNumeral : Obligations.IntToHexIsShortestNumeral := by
  refine ⟨fun d => ⟨fun hd => ?decimal, fun hlo hhi => ?letter⟩, intToHex_zero, fun n hn => ?numeral⟩
  case decimal => rw [toNat_hexchar (by omega), if_pos (by omega)]
  case letter => rw [toNat_hexchar (by omega), if_neg (by omega)]
  case numeral =>
    have hpos := one_le_intToHex_len n
    exact ⟨hpos, intToHex_wellFormed n, (intToHex_len_le_iff hn hpos).mp (Nat.le_refl _),
      fun k hk hlt => (intToHex_len_le_iff hn hk).mpr hlt, fun i hi => intToHex_slot hi⟩

/-! ### The round trip (R106) -/

theorem hexToInt_intToHex {n : Nat} (h : n < 2 ^ 32) : hexToInt (intToHex n) = n := hexValue_hexNumeral (k := 8) h

/-- Every character of a numeral is a written digit. -/
theorem exists_hexchar_of_mem_intToHex {n : Nat} {ch : CharCode} (h : ch ∈ (intToHex n).chars) :
    ∃ d < 16, ch = hexchar d := by
  obtain ⟨i, hi, rfl⟩ := List.getElem_of_mem h
  exact ⟨_, Nat.mod_lt _ (by decide), hexNumeral_getElem 8 n i hi⟩

theorem not_lowerCase_of_mem_intToHex {n : Nat} {ch : CharCode} (h : ch ∈ (intToHex n).chars) :
    ¬ (0x61 ≤ ch.toNat ∧ ch.toNat ≤ 0x66) := by
  obtain ⟨d, hd, rfl⟩ := exists_hexchar_of_mem_intToHex h
  exact not_lowerCase_hexchar hd

/-- Only the numeral `"0"` begins with a zero (R104, "no leading zero"). -/
theorem intToHex_len_of_leading_zero {n : Nat} (h : n < 2 ^ 32) (hzero : (intToHex n).slot 0 = 0x30#8) :
    (intToHex n).len = 1 := by
  have hpos := one_le_intToHex_len n
  have hlt := hexToInt_lt_of_leading_zero (intToHex_chars_ne_nil n) hzero
  rw [hexToInt_intToHex h] at hlt
  by_cases hlen : 1 ≤ (intToHex n).len - 1
  · have hle := (intToHex_len_le_iff h hlen).mpr hlt
    omega
  · omega

/-- The numeral of a cell's number is as long as the cell, unless a zero leads. -/
theorem intToHex_hexToInt_len {c : Cell} (hc : c.WellFormed) (hne : c.chars ≠ []) (hlead : digit (c.slot 0) = 0 → c.len = 1) :
    (intToHex (hexToInt c)).len = c.len := by
  have hbound := hexToInt_lt hc
  have hpos : 1 ≤ c.len := List.length_pos_iff.mpr hne
  have hle : (intToHex (hexToInt c)).len ≤ c.len := (intToHex_len_le_iff hbound hpos).mpr (hexValue_lt c.chars)
  by_cases hlen : c.len = 1
  case pos =>
    have hnumeral := one_le_intToHex_len (hexToInt c)
    omega
  case neg =>
    have hge := le_hexToInt_of_leading_digit fun h => hlen (hlead h)
    have hshorter := mt (intToHex_len_le_iff hbound (by omega : 1 ≤ c.len - 1)).mp (Nat.not_lt.mpr hge)
    omega

/-- Two cells of one length and one number are one cell, if both are in the characters that `hexchar` writes. -/
theorem Cell.eq_of_hexToInt_eq {c d : Cell} (hc : ∀ ch ∈ c.chars, hexchar (digit ch) = ch)
    (hd : ∀ ch ∈ d.chars, hexchar (digit ch) = ch) (hlen : c.len = d.len) (h : hexToInt c = hexToInt d) : c = d := by
  have rewritten {cs : List CharCode} (hcs : ∀ ch ∈ cs, hexchar (digit ch) = ch) : (cs.map digit).map hexchar = cs := by
    rw [List.map_map]
    exact (List.map_congr_left hcs).trans (List.map_id _)
  have hchars : c.chars = d.chars := by
    rw [← rewritten hc, ← rewritten hd, map_digit_eq_of_hexValue_eq hlen h]
  cases c
  cases d
  exact congrArg Cell.mk hchars

/-- A cell in the form that `intToHex` writes is the numeral of its number (R106). -/
theorem intToHex_hexToInt {c : Cell} (hc : c.WellFormed) (hvalid : isValidHex c = true) (hne : c.chars ≠ [])
    (hzero : c.slot 0 = 0x30#8 → c.len = 1) (hup : ∀ ch ∈ c.chars, ¬ (0x61 ≤ ch.toNat ∧ ch.toNat ≤ 0x66)) :
    intToHex (hexToInt c) = c := by
  have hcell : ∀ ch ∈ c.chars, hexchar (digit ch) = ch := fun ch hch =>
    hexchar_digit (List.all_eq_true.mp hvalid ch hch) (hup ch hch)
  have hnumeral : ∀ ch ∈ (intToHex (hexToInt c)).chars, hexchar (digit ch) = ch := by
    intro ch hch
    obtain ⟨d, hd, rfl⟩ := exists_hexchar_of_mem_intToHex hch
    rw [digit_hexchar hd]
  have hlead (h : digit (c.slot 0) = 0) : c.len = 1 := by
    have hpos : 0 < c.chars.length := List.length_pos_iff.mpr hne
    have hfirst : hexchar (digit (c.slot 0)) = c.slot 0 := hcell _ (Cell.slot_of_lt hpos ▸ List.getElem_mem hpos)
    rw [h] at hfirst
    exact hzero hfirst.symm
  exact Cell.eq_of_hexToInt_eq hnumeral hcell (intToHex_hexToInt_len hc hne hlead) (hexToInt_intToHex (hexToInt_lt hc))

/-- Settles O10: a cell that is kept has the form of a numeral, and a cell of that form is its number's numeral. -/
theorem hexRoundTrip : Obligations.HexRoundTrip := by
  intro c hc hvalid
  have hbound := hexToInt_lt hc
  refine ⟨hexToInt_intToHex hbound, fun hkept => ?form, fun ⟨hne, hzero, hup⟩ => intToHex_hexToInt hc hvalid hne hzero hup⟩
  case form =>
    rw [← hkept]
    exact ⟨intToHex_chars_ne_nil _, intToHex_len_of_leading_zero hbound, fun _ => not_lowerCase_of_mem_intToHex⟩

end Sys2Proof.Machine
end

section
/-! PROOFS. The integer adder (spec 41_hex_codec_integer_alu.md R107 to R110): its three outcomes, the registers and the events
that each leaves. -/

namespace Sys2Proof.Machine

/-- The exact sum of the two operands' numbers (R107). -/
abbrev integerSum (a b : Int) (s : State) : Nat := hexToInt (regOperand a s) + hexToInt (regOperand b s)

/-- Both operands pass the adder's check (R107). -/
abbrev OperandsValid (a b : Int) (s : State) : Prop :=
  isValidHex (regOperand a s) = true ∧ isValidHex (regOperand b s) = true

theorem integerSum_comm (a b : Int) (s : State) : integerSum a b s = integerSum b a s := Nat.add_comm _ _

theorem operandsValid_comm {a b : Int} {s : State} : OperandsValid a b s ↔ OperandsValid b a s := And.comm

/-! ### The three outcomes (R107, R108) -/

section
variable {a b : Int} {s : State}

theorem addIntegers_of_not_valid (d : Int) (h : ¬ OperandsValid a b s) :
    addIntegers a b d s = (afterRead b (afterRead a s)).raise
      (.invalidHexDigit (!isValidHex (regOperand a s)) (!isValidHex (regOperand b s))) := by
  rw [addIntegers_eq, if_pos]
  simpa [OperandsValid, Decidable.imp_iff_not_or] using h

theorem addIntegers_of_overflow (d : Int) (h : OperandsValid a b s) (hsum : 2 ^ 32 ≤ integerSum a b s) :
    addIntegers a b d s = (afterRead b (afterRead a s)).raise (.cellOverflow (integerSum a b s)) := by
  obtain ⟨ha, hb⟩ := h
  rw [addIntegers_eq, if_neg (by simp [ha, hb]), if_pos hsum]

theorem addIntegers_of_sum_lt (d : Int) (h : OperandsValid a b s) (hsum : integerSum a b s < 2 ^ 32) :
    addIntegers a b d s = regWrite d (intToHex (integerSum a b s)) (afterRead b (afterRead a s)) := by
  obtain ⟨ha, hb⟩ := h
  rw [addIntegers_eq, if_neg (by simp [ha, hb]), if_neg (Nat.not_le.mpr hsum)]

end

/-- What the adder leaves in each register: the numeral of the sum in the one it names, if the sum can be written. -/
theorem addIntegers_getElem (a b d : Int) (s : State) (k : Fin 16) :
    (addIntegers a b d s).x[k] =
      if OperandsValid a b s ∧ integerSum a b s < 2 ^ 32 ∧ (k.val : Int) = d then intToHex (integerSum a b s)
      else s.x[k] := by
  by_cases hvalid : OperandsValid a b s
  · by_cases hsum : integerSum a b s < 2 ^ 32
    · rw [addIntegers_of_sum_lt d hvalid hsum, regWrite_getElem]
      exact ite_congr (propext ⟨fun hk => ⟨hvalid, hsum, hk⟩, fun ⟨_, _, hk⟩ => hk⟩) (fun _ => rfl) (fun _ => rfl)
    · rw [addIntegers_of_overflow d hvalid (Nat.not_lt.mp hsum), if_neg fun ⟨_, hlt, _⟩ => hsum hlt]
      rfl
  · rw [addIntegers_of_not_valid d hvalid, if_neg fun ⟨hv, _⟩ => hvalid hv]
    rfl

/-- The adder's events: those of the two reads in order, then that of the failed check or those of the write (R107). -/
theorem addIntegers_diag (a b d : Int) (s : State) :
    (addIntegers a b d s).diag = s.diag ++ regReadEvents a ++ regReadEvents b ++
      (if OperandsValid a b s then
        (if integerSum a b s < 2 ^ 32 then regWriteEvents d else [.cellOverflow (integerSum a b s)])
      else [.invalidHexDigit (!isValidHex (regOperand a s)) (!isValidHex (regOperand b s))]) := by
  by_cases hvalid : OperandsValid a b s
  · by_cases hsum : integerSum a b s < 2 ^ 32
    · rw [addIntegers_of_sum_lt d hvalid hsum, regWrite_diag, if_pos hvalid, if_pos hsum]
      rfl
    · rw [addIntegers_of_overflow d hvalid (Nat.not_lt.mp hsum), if_pos hvalid, if_neg hsum]
      rfl
  · rw [addIntegers_of_not_valid d hvalid, if_neg hvalid]
    rfl

/-! ### The instruction (R109, R110) -/

/-- Settles O19: `A` is the adder on the three register fields. -/
theorem addWritesTheShortestSum : Obligations.AddWritesTheShortestSum := by
  intro f s a b n
  have hsame := sameButRegisters_addIntegers f.r f.s f.t s
  refine ⟨addIntegers f.r f.s f.t s, exec_addInt f s, fun k => ?register, hsame.mem, hsame.pc, hsame.ir, hsame.phase,
    addIntegers_diag f.r f.s f.t s⟩
  case register => exact (addIntegers_getElem f.r f.s f.t s k).trans (ite_congr (propext and_assoc) (fun _ => rfl) (fun _ => rfl))

/-- The check, the sum and the register written are the same with the operands exchanged (R110). -/
theorem addIntegers_x_comm (a b d : Int) (s : State) : (addIntegers a b d s).x = (addIntegers b a d s).x := by
  refine Vector.ext fun k hk => ?_
  have hreg (a b : Int) := addIntegers_getElem a b d s ⟨k, hk⟩
  simp only [Fin.getElem_fin] at hreg
  rw [hreg, hreg, integerSum_comm]
  simp only [operandsValid_comm]

/-- Settles O20. -/
theorem addCommutesInValue : Obligations.AddCommutesInValue := fun r1 r2 d _ _ s =>
  ⟨_, _, exec_addInt _ s, exec_addInt _ s, addIntegers_x_comm r1 r2 d s⟩

end Sys2Proof.Machine
end

section
/-! PROOFS. The 8-bit float format (spec 42_float_codec_alu.md R120 to R123) and the two conversions between a cell and a byte
(R121, R129). -/

namespace Sys2Proof.Machine

/-! ### The three fields of a byte (R120) -/

theorem fsign_lt (b : Byte) : fsign b < 2 := by
  have hb : b.toNat < 256 := b.isLt
  unfold fsign
  omega

theorem fexponent_lt (b : Byte) : fexponent b < 8 := Nat.mod_lt _ (by decide)

theorem fmantissa_lt (b : Byte) : fmantissa b < 16 := Nat.mod_lt _ (by decide)

theorem fsign_eq_extractLsb' (b : Byte) : fsign b = (b.extractLsb' 7 1).toNat := by
  have hlt := fsign_lt b
  rw [BitVec.extractLsb'_toNat, Nat.shiftRight_eq_div_pow]
  exact (Nat.mod_eq_of_lt hlt).symm

theorem fexponent_eq_extractLsb' (b : Byte) : fexponent b = (b.extractLsb' 4 3).toNat := by
  rw [BitVec.extractLsb'_toNat, Nat.shiftRight_eq_div_pow]
  rfl

theorem fmantissa_eq_extractLsb' (b : Byte) : fmantissa b = (b.extractLsb' 0 4).toNat := by
  rw [BitVec.extractLsb'_toNat, Nat.shiftRight_zero]
  rfl

/-- Packing the fields of a byte gives the byte back. -/
theorem fpack_fields (b : Byte) : fpack (fsign b) (fexponent b) (fmantissa b) = b := by
  have hb : b.toNat < 256 := b.isLt
  apply BitVec.eq_of_toNat_eq
  rw [fpack, BitVec.toNat_ofNat, fsign, fexponent, fmantissa]
  omega

section
variable {sign e m : Nat}

theorem toNat_fpack (hs : sign < 2) (he : e < 8) (hm : m < 16) : (fpack sign e m).toNat = sign * 128 + e * 16 + m := by
  rw [fpack, BitVec.toNat_ofNat]
  omega

theorem fsign_fpack (hs : sign < 2) (he : e < 8) (hm : m < 16) : fsign (fpack sign e m) = sign := by
  rw [fsign, toNat_fpack hs he hm]
  omega

theorem fexponent_fpack (hs : sign < 2) (he : e < 8) (hm : m < 16) : fexponent (fpack sign e m) = e := by
  rw [fexponent, toNat_fpack hs he hm]
  omega

theorem fmantissa_fpack (hs : sign < 2) (he : e < 8) (hm : m < 16) : fmantissa (fpack sign e m) = m := by
  rw [fmantissa, toNat_fpack hs he hm]
  omega

end

theorem fnormalised_iff (b : Byte) : fnormalised b = true ↔ 8 ≤ fmantissa b := decide_eq_true_iff

/-! ### The value of a byte (R122) -/

/-- The magnitude of a byte's value, in units of `1/256`. -/
abbrev fmagnitude (b : Byte) : Nat := fmantissa b * 2 ^ fexponent b

/-- The magnitude with the sign of the sign bit. -/
theorem fval_cases (b : Byte) :
    (fsign b = 0 ∧ fval b = fmagnitude b) ∨ (fsign b = 1 ∧ fval b = -(fmagnitude b : Int)) := by
  have hlt := fsign_lt b
  obtain hs | hs : fsign b = 0 ∨ fsign b = 1 := by omega
  · exact .inl ⟨hs, by rw [fval, hs]; exact Int.one_mul _⟩
  · exact .inr ⟨hs, by rw [fval, hs]; exact Int.neg_one_mul _⟩

theorem natAbs_fval (b : Byte) : (fval b).natAbs = fmagnitude b := by
  rcases fval_cases b with ⟨-, h⟩ | ⟨-, h⟩
  · rw [h, Int.natAbs_natCast]
  · rw [h, Int.natAbs_neg, Int.natAbs_natCast]

theorem fmagnitude_le (b : Byte) : fmagnitude b ≤ 1920 :=
  calc fmantissa b * 2 ^ fexponent b
      ≤ 15 * 2 ^ 7 := Nat.mul_le_mul (Nat.le_of_lt_succ (fmantissa_lt b))
        (Nat.pow_le_pow_right (by decide) (Nat.le_of_lt_succ (fexponent_lt b)))
    _ = 1920 := rfl

theorem fmagnitude_pos {b : Byte} (h : 0 < fmantissa b) : 0 < fmagnitude b :=
  Nat.mul_pos h (Nat.pow_pos (by decide))

/-- The bias of 4 is a factor `1/16`. -/
theorem two_zpow_sub_bias (e : Nat) : (2 : Rat) ^ ((e : Int) - 4) = ((2 ^ e : Nat) : Rat) / 16 := by
  have hbias : (2 : Rat) ^ (-4 : Int) = 16⁻¹ := by
    rw [Rat.zpow_neg]
    congr 1
  rw [Int.sub_eq_add_neg, Rat.zpow_add (by decide), hbias, Rat.zpow_natCast, Rat.natCast_pow, Rat.div_def]
  rfl

theorem neg_one_pow_eq_intCast (sign : Nat) : (-1 : Rat) ^ sign = (((-1) ^ sign : Int) : Rat) := by
  rw [Rat.intCast_pow]
  rfl

/-- The bias and the sixteenths of the mantissa are one factor `1/256`. -/
theorem fdecode_eq_fval_div (b : Byte) : fdecode b = (fval b : Rat) / 256 := by
  rw [fdecode, fval, two_zpow_sub_bias, neg_one_pow_eq_intCast, Rat.intCast_mul, Rat.intCast_natCast, Rat.natCast_mul]
  grind

/-- Settles O39. -/
theorem floatDecodeFormula : Obligations.FloatDecodeFormula := by
  intro b
  rw [← fsign_eq_extractLsb', ← fexponent_eq_extractLsb', ← fmantissa_eq_extractLsb']
  have habs := natAbs_fval b
  have hle := fmagnitude_le b
  exact ⟨rfl, rfl, rfl, fpack_fields b, rfl, fnormalised_iff b, fdecode_eq_fval_div b, by omega, by omega⟩

/-! ### From a cell to a byte and back (R121, R129) -/

theorem toNat_fbyte (c : Cell) : (fbyte c).toNat = hexToInt c % 256 := by
  rw [fbyte, BitVec.toNat_ofNat]
  exact Nat.mod_mod _ _

/-- Two digits fill the low eight bits of a number, whatever stands before them. -/
theorem hexValue_append_pair (cs : List CharCode) (hi lo : CharCode) :
    hexValue (cs ++ [hi, lo]) % 256 = 16 * digit hi + digit lo := by
  have hhi := digit_lt hi
  have hlo := digit_lt lo
  have hsplit : cs ++ [hi, lo] = (cs ++ [hi]) ++ [lo] := by rw [List.append_assoc, List.singleton_append]
  rw [hsplit, hexValue_append_singleton, hexValue_append_singleton]
  omega

theorem exists_append_pair {cs : List CharCode} (h : 2 ≤ cs.length) : ∃ init hi lo, cs = init ++ [hi, lo] := by
  obtain rfl | ⟨front, lo, rfl⟩ := cs.eq_nil_or_concat
  · exact absurd h (by decide)
  · obtain rfl | ⟨init, hi, rfl⟩ := front.eq_nil_or_concat
    · exact absurd h (by simp)
    · exact ⟨init, hi, lo, by simp⟩

theorem toNat_fbyte_of_two_le_len {c : Cell} (h : 2 ≤ c.len) :
    (fbyte c).toNat = 16 * digit (c.slot (c.len - 2)) + digit (c.slot (c.len - 1)) := by
  obtain ⟨chars⟩ := c
  obtain ⟨init, hi, lo, rfl⟩ := exists_append_pair h
  rw [toNat_fbyte, hexToInt, hexValue_append_pair]
  simp [Cell.slot, Cell.len]

theorem toNat_fbyte_of_len_one {c : Cell} (h : c.len = 1) : (fbyte c).toNat = digit (c.slot 0) := by
  obtain ⟨chars⟩ := c
  obtain ⟨ch, rfl⟩ := List.length_eq_one_iff.mp h
  have hlt := digit_lt ch
  rw [toNat_fbyte, hexToInt, hexValue_cons, hexValue_nil]
  simp only [List.length_nil, Nat.pow_zero, Nat.mul_one, Nat.add_zero]
  exact Nat.mod_eq_of_lt (by omega)

theorem fbyte_of_len_zero {c : Cell} (h : c.len = 0) : fbyte c = 0x00#8 := by
  obtain ⟨chars⟩ := c
  obtain rfl : chars = [] := List.length_eq_zero_iff.mp h
  rfl

theorem isValidHex_byteToHex2 (b : Byte) : isValidHex (byteToHex2 b) = true := by
  have hb : b.toNat < 256 := b.isLt
  simp [isValidHex, byteToHex2, isHexChar_hexchar (by omega : b.toNat / 16 < 16), isHexChar_hexchar (by omega : b.toNat % 16 < 16)]

theorem fbyte_byteToHex2 (b : Byte) : fbyte (byteToHex2 b) = b := by
  have hb : b.toNat < 256 := b.isLt
  apply BitVec.eq_of_toNat_eq
  calc (fbyte (byteToHex2 b)).toNat
      = 16 * digit (hexchar (b.toNat / 16)) + digit (hexchar (b.toNat % 16)) :=
        toNat_fbyte_of_two_le_len (Nat.le_refl 2)
    _ = b.toNat := by
      rw [digit_hexchar (by omega), digit_hexchar (by omega)]
      exact Nat.div_add_mod _ _

/-- The slots of a written byte hold the digits of its upper and its lower four bits (R129). -/
theorem byteToHex2_slots (b : Byte) :
    (byteToHex2 b).slot 0 = hexchar (b.extractLsb' 4 4).toNat ∧ (byteToHex2 b).slot 1 = hexchar (b.extractLsb' 0 4).toNat := by
  have hb : b.toNat < 256 := b.isLt
  have hupper : (b.extractLsb' 4 4).toNat = b.toNat / 16 := by
    rw [BitVec.extractLsb'_toNat, Nat.shiftRight_eq_div_pow]
    exact Nat.mod_eq_of_lt (by omega)
  rw [hupper, ← fmantissa_eq_extractLsb']
  exact ⟨rfl, rfl⟩

/-- Settles O58. -/
theorem floatCellConversions : Obligations.FloatCellConversions := by
  refine ⟨fun c => ⟨toNat_fbyte c, fbyte_of_len_zero, toNat_fbyte_of_len_one, toNat_fbyte_of_two_le_len⟩, fun b => ?written⟩
  case written =>
    obtain ⟨hupper, hlower⟩ := byteToHex2_slots b
    exact ⟨rfl, hupper, hlower, isValidHex_byteToHex2 b, fbyte_byteToHex2 b⟩

end Sys2Proof.Machine
end

section
/-! PROOFS. The normaliser and the float encoder (spec 42_float_codec_alu.md R126 to R128, R132; 70_reset_and_hazards.md R229): where
the two loops end, counted from the highest set bit, and the encoder's answer as the four bits from there. -/

namespace Sys2Proof.Machine

/-! ### The two loops (R126) -/

theorem Magnitude.atLeastOne_iff {n : Nat} (hne : n ≠ 0) (scale : Nat) (x : Int) :
    Magnitude.atLeastOne ⟨n, scale, x⟩ = true ↔ scale ≤ n.log2 :=
  decide_eq_true_iff.trans (Nat.le_log2 hne).symm

theorem Magnitude.belowHalf_iff {n : Nat} (hne : n ≠ 0) (scale : Nat) (x : Int) :
    Magnitude.belowHalf ⟨n, scale, x⟩ = true ↔ n.log2 + 1 < scale := by
  have htwice : 2 * n ≠ 0 := by omega
  rw [Magnitude.belowHalf, decide_eq_true_iff, Nat.mul_comm, ← Nat.log2_lt htwice, Nat.log2_two_mul hne]

/-- With passes enough, the first loop halves until the fraction takes in the highest set bit. -/
theorem halvingLoop_eq {n : Nat} (hne : n ≠ 0) (k scale : Nat) (x : Int) (hk : n.log2 + 1 ≤ scale + k) :
    halvingLoop k ⟨n, scale, x⟩ =
      ⟨n, scale + (n.log2 + 1 - scale), x + ((n.log2 + 1 - scale : Nat) : Int)⟩ := by
  induction k generalizing scale x with
  | zero =>
    have hdone : n.log2 + 1 - scale = 0 := by omega
    simp [halvingLoop, hdone]
  | succ k ih =>
    rw [halvingLoop]
    split
    case isTrue h =>
      have hle := (Magnitude.atLeastOne_iff hne scale x).mp h
      rw [ih (scale + 1) (x + 1) (by omega), Magnitude.mk.injEq]
      omega
    case isFalse h =>
      have hdone : n.log2 + 1 - scale = 0 := by
        rw [Magnitude.atLeastOne_iff hne] at h
        omega
      simp [hdone]

/-- With passes enough, the second loop doubles until the highest set bit is the first of the fraction. -/
theorem doublingLoop_eq {n : Nat} (hne : n ≠ 0) (k scale : Nat) (x : Int) (hk : scale ≤ n.log2 + 1 + k) :
    doublingLoop k ⟨n, scale, x⟩ =
      ⟨n * 2 ^ (scale - (n.log2 + 1)), scale, x - ((scale - (n.log2 + 1) : Nat) : Int)⟩ := by
  induction k generalizing n x with
  | zero =>
    have hdone : scale - (n.log2 + 1) = 0 := by omega
    simp [doublingLoop, hdone]
  | succ k ih =>
    rw [doublingLoop]
    split
    case isTrue h =>
      have hlt := (Magnitude.belowHalf_iff hne scale x).mp h
      have hlog : (n * 2).log2 = n.log2 + 1 := by rw [Nat.mul_comm, Nat.log2_two_mul hne]
      have hpass : scale - (n.log2 + 1) = scale - (n.log2 + 1 + 1) + 1 := by omega
      calc doublingLoop k ⟨n * 2, scale, x - 1⟩
          = ⟨n * 2 * 2 ^ (scale - (n.log2 + 1 + 1)), scale, x - 1 - ((scale - (n.log2 + 1 + 1) : Nat) : Int)⟩ := by
            rw [ih (by omega) (x - 1) (by omega), hlog]
        _ = ⟨n * 2 ^ (scale - (n.log2 + 1)), scale, x - ((scale - (n.log2 + 1) : Nat) : Int)⟩ := by
            rw [hpass, Nat.pow_succ', Nat.mul_assoc, Magnitude.mk.injEq]
            omega
    case isFalse h =>
      have hdone : scale - (n.log2 + 1) = 0 := by
        rw [Magnitude.belowHalf_iff hne] at h
        omega
      simp [hdone]

/-- The normaliser of `n / 256`, from the highest set bit of `n`: of the halvings above bit 7 and the doublings below it one is zero. -/
theorem normalise_eq {n : Nat} (hne : n ≠ 0) (hlog : n.log2 < 24) :
    normalise n = ⟨n * 2 ^ (7 - n.log2), 8 + (n.log2 - 7), (n.log2 : Int) - 7⟩ := by
  have hdoublings : 8 + (n.log2 + 1 - 8) - (n.log2 + 1) = 7 - n.log2 := by omega
  rw [normalise, halvingLoop_eq hne 16 8 0 (by omega), doublingLoop_eq hne 16 _ _ (by omega), hdoublings, Magnitude.mk.injEq]
  omega

/-- The sums of the adder have at most 12 bits (R124). -/
theorem log2_lt_of_le {n : Nat} (h : n ≤ 3840) : n.log2 < 12 := by
  by_cases hne : n = 0
  · subst hne
    decide
  · exact (Nat.log2_lt hne).mpr (by omega)

/-- Settles O40: the highest set bit ends as the first of the fraction, and the counted passes are exact. -/
theorem normaliserReachesHalfToOne : Obligations.NormaliserReachesHalfToOne := by
  intro n hpos hle m
  have hne : n ≠ 0 := Nat.ne_of_gt hpos
  have hlog := log2_lt_of_le hle
  obtain ⟨hlow, hhigh⟩ := (Nat.log2_eq_iff hne).mp (rfl : n.log2 = n.log2)
  have hm : m = ⟨n * 2 ^ (7 - n.log2), 8 + (n.log2 - 7), (n.log2 : Int) - 7⟩ := normalise_eq hne (by omega)
  have hscale : 2 ^ (8 + (n.log2 - 7)) = 2 ^ (n.log2 + 1) * 2 ^ (7 - n.log2) := by
    rw [← Nat.pow_add]
    congr 1
    omega
  have hnegexp : (-((n.log2 : Int) - 7)).toNat = 7 - n.log2 := by omega
  have hexp : ((n.log2 : Int) - 7).toNat = n.log2 - 7 := by omega
  rw [hm]
  simp only [hnegexp, hexp]
  refine ⟨?belowOne, ?atLeastHalf, by omega, by omega, ?exact⟩
  case belowOne =>
    rw [hscale]
    exact Nat.mul_lt_mul_of_pos_right hhigh (Nat.pow_pos (by decide))
  case atLeastHalf =>
    rw [hscale, Nat.pow_succ', Nat.mul_assoc]
    exact Nat.mul_le_mul_left 2 (Nat.mul_le_mul_right _ hlow)
  case exact =>
    rw [Nat.pow_add]
    grind

/-! ### The encoder (R126, R127) -/

/-- Sixteenths of the normalised magnitude are the number's top four bits. -/
theorem normalised_sixteenths (n : Nat) {p : Nat} (hp : 3 ≤ p) :
    n * 2 ^ (7 - p) * 16 / 2 ^ (8 + (p - 7)) = n >>> (p - 3) := by
  have hscale : 8 + (p - 7) = (7 - p + 4) + (p - 3) := by omega
  rw [hscale, Nat.pow_add 2 (7 - p + 4), Nat.pow_add 2 (7 - p), Nat.mul_assoc, Nat.mul_comm n,
    Nat.mul_div_mul_left _ _ (Nat.mul_pos (Nat.two_pow_pos _) (by decide)), Nat.shiftRight_eq_div_pow]

/-- The loops and the priority encoder give one answer, wherever the bound on the passes cuts no loop. -/
theorem fencode_eq_fencodeK {k : Int} (hk : k ≠ 0) (hlog : k.natAbs.log2 < 24) : fencode k = fencodeK k := by
  simp only [fencode, fencodeK, normalise_eq (Int.natAbs_ne_zero.mpr hk) hlog]
  have hexp : (k.natAbs.log2 : Int) - 7 + 4 = (k.natAbs.log2 : Int) - 3 := by omega
  rw [hexp]
  by_cases hp : k.natAbs.log2 < 3 ∨ k.natAbs.log2 > 10
  case pos => rw [if_pos hp, if_pos (by omega)]
  case neg =>
    have hplace : ((k.natAbs.log2 : Int) - 3).toNat = k.natAbs.log2 - 3 := by omega
    rw [if_neg hp, if_neg (by omega), hplace, normalised_sixteenths _ (by omega)]

/-- Settles O41. -/
theorem encoderMatchesIntegerForm : Obligations.EncoderMatchesIntegerForm := fun k hk hlo hhi =>
  fencode_eq_fencodeK hk (Nat.lt_trans (log2_lt_of_le (by omega)) (by decide))

/-- The sign bit of a non-zero number (R126). -/
abbrev signBit (k : Int) : Nat := if k < 0 then 1 else 0

theorem signBit_lt (k : Int) : signBit k < 2 := by
  unfold signBit
  split <;> decide

section
variable {k : Int} {e : Nat}

/-- A number that begins at bit `e + 3`, `e` an exponent of the format, is encoded as its four bits from there. -/
theorem fencode_of_log2 (hlog : k.natAbs.log2 = e + 3) (he : e < 8) :
    fencode k = (fpack (signBit k) e (k.natAbs / 2 ^ e), none) := by
  have hk : k ≠ 0 := by
    rintro rfl
    exact absurd hlog (Nat.succ_ne_zero _).symm
  rw [fencode_eq_fencodeK hk (by omega), fencodeK, hlog, if_neg (by omega), Nat.add_sub_cancel, Nat.shiftRight_eq_div_pow]

/-- Any other number is lost: the zero byte, and the exponent that the format does not have. -/
theorem fencode_of_not_representable (hk : k ≠ 0) (hlog : k.natAbs.log2 < 24) (hout : k.natAbs.log2 < 3 ∨ 10 < k.natAbs.log2) :
    fencode k = (0x00#8, some ((k.natAbs.log2 : Int) - 3)) := by
  rw [fencode_eq_fencodeK hk hlog, fencodeK, if_pos hout]

/-- The four bits from the highest set bit are a normalised mantissa. -/
theorem topBits_bounds {n : Nat} (hlog : n.log2 = e + 3) : 8 ≤ n / 2 ^ e ∧ n / 2 ^ e < 16 := by
  have hne : n ≠ 0 := by
    rintro rfl
    exact absurd hlog (Nat.succ_ne_zero _).symm
  obtain ⟨hlow, hhigh⟩ := (Nat.log2_eq_iff hne).mp hlog
  have hpos : 0 < 2 ^ e := Nat.pow_pos (by decide)
  rw [Nat.le_div_iff_mul_le hpos, Nat.div_lt_iff_lt_mul hpos]
  rw [Nat.add_assoc] at hhigh
  rw [Nat.pow_add] at hlow hhigh
  omega

end

/-- The value of a packed byte has the sign of its sign bit and the magnitude of its mantissa at its exponent. -/
theorem fval_sign {b : Byte} {k : Int} (hsign : fsign b = signBit k) (hpos : 0 < fmantissa b) :
    (0 < k → 0 < fval b) ∧ (k < 0 → fval b < 0) := by
  have hmag := fmagnitude_pos hpos
  rcases fval_cases b with ⟨hs, hval⟩ | ⟨hs, hval⟩
  all_goals
    rw [hs, signBit] at hsign
    split at hsign <;> omega

/-- Settles O42: the representable numbers are those whose highest set bit is bit 3 to 10; dividing by the mantissa's last place and
multiplying back is what truncates. -/
theorem encodingTruncatesTowardZero : Obligations.EncodingTruncatesTowardZero := by
  intro k hk hlo hhi
  have hne : k.natAbs ≠ 0 := Int.natAbs_ne_zero.mpr hk
  have hlog : k.natAbs.log2 < 12 := log2_lt_of_le (by omega)
  refine ⟨fun ⟨h8, h2048⟩ => ?representable, fun hout => ?lost⟩
  case representable =>
    have h3 : 3 ≤ k.natAbs.log2 := (Nat.le_log2 hne).mpr h8
    have h11 : k.natAbs.log2 < 11 := (Nat.log2_lt hne).mpr h2048
    obtain ⟨e, he⟩ := Nat.exists_eq_add_of_le' h3
    have he8 : e < 8 := by omega
    obtain ⟨hm8, hm16⟩ := topBits_bounds he
    have hsign := fsign_fpack (signBit_lt k) he8 hm16
    have hexponent := fexponent_fpack (signBit_lt k) he8 hm16
    have hmantissa := fmantissa_fpack (signBit_lt k) he8 hm16
    obtain ⟨hplus, hminus⟩ := fval_sign hsign (by omega)
    refine ⟨_, fencode_of_log2 he he8, (fnormalised_iff _).mpr (le_of_le_of_eq hm8 hmantissa.symm), hplus, hminus, ?_⟩
    rw [natAbs_fval, fmagnitude, hexponent, hmantissa]
    exact ⟨Nat.div_mul_le_self _ _, Nat.lt_div_mul_add (Nat.pow_pos (by decide))⟩
  case lost =>
    have hout' : k.natAbs.log2 < 3 ∨ 10 < k.natAbs.log2 :=
      hout.imp (Nat.log2_lt hne).mpr (Nat.le_log2 hne).mpr
    exact ⟨_, fencode_of_not_representable hk (by omega) hout', by omega⟩

/-! ### The round trip (R128) -/

/-- Settles O43: a normalised byte's value begins at the bit that its exponent says; every byte of the encoder is zero or normalised. -/
theorem normalisedBytesRoundTrip : Obligations.NormalisedBytesRoundTrip := by
  intro b
  have hm16 := fmantissa_lt b
  have habs := natAbs_fval b
  have hle := fmagnitude_le b
  refine ⟨fun hm => ?normalised, fun hm1 hm7 => ?unnormalised⟩
  case normalised =>
    have hmag := fmagnitude_pos (by omega : 0 < fmantissa b)
    have hlog : (fval b).natAbs.log2 = fexponent b + 3 := by
      rw [habs, Nat.log2_eq_iff (Nat.ne_of_gt hmag), Nat.add_assoc, Nat.pow_add, Nat.pow_add, Nat.mul_comm _ (2 ^ 3),
        Nat.mul_comm _ (2 ^ (3 + 1))]
      exact ⟨Nat.mul_le_mul_right _ hm, Nat.mul_lt_mul_of_pos_right hm16 (Nat.pow_pos (by decide))⟩
    have hsign : signBit (fval b) = fsign b := by
      unfold signBit
      rcases fval_cases b with ⟨hs, hval⟩ | ⟨hs, hval⟩
      · rw [hs, if_neg (by omega)]
      · rw [hs, if_pos (by omega)]
    rw [fencode_of_log2 hlog (fexponent_lt b), hsign, habs, Nat.mul_div_cancel _ (Nat.pow_pos (by decide)), fpack_fields]
  case unnormalised =>
    intro hkept
    have hmag := fmagnitude_pos hm1
    obtain ⟨hrepresentable, hlost⟩ := encodingTruncatesTowardZero (fval b) (by omega) (by omega) (by omega)
    by_cases hin : 8 ≤ (fval b).natAbs ∧ (fval b).natAbs < 2048
    · obtain ⟨b', hb', hnormal, -⟩ := hrepresentable hin
      obtain rfl : b' = b := by rwa [hb'] at hkept
      have hm8 := (fnormalised_iff b').mp hnormal
      omega
    · obtain ⟨e, he, -⟩ := hlost (by omega)
      rw [he] at hkept
      have hzero : fmantissa b = 0 := hkept ▸ rfl
      omega

end Sys2Proof.Machine
end

section
/-! PROOFS. The float adder (spec 42_float_codec_alu.md R130, R132), the tagged entry (R131), and both through their port
(45_host_ports.md R180, R186). -/

namespace Sys2Proof.Machine

/-! ### The float adder (R130, R132) -/

/-- The cell that the float adder writes: `"00"` for a zero sum, and the two digits of the encoded sum otherwise. -/
def floatResult (k : Int) : Cell := if k = 0 then Cell.zeros else byteToHex2 (fencode k).1

/-- The event of the float adder's encoder: none for a zero sum, which bypasses it. -/
def floatEvents (k : Int) : List Diag := if k = 0 then [] else (fencode k).2.toList.map .unrepresentableFloat

theorem floatSum_comm (a b : Int) (s : State) : floatSum a b s = floatSum b a s := Int.add_comm _ _

theorem raiseUnrepresentable_diag (e : Option Int) (s : State) :
    (raiseUnrepresentable e s).diag = s.diag ++ e.toList.map .unrepresentableFloat := by
  cases e with
  | none => exact (List.append_nil _).symm
  | some e => rfl

/-- What the float adder leaves in each register: the cell of the sum in the one it names. -/
theorem addFloats_getElem (a b d : Int) (s : State) (j : Fin 16) :
    (addFloats a b d s).x[j] = if (j.val : Int) = d then floatResult (floatSum a b s) else s.x[j] := by
  rw [addFloats_eq, floatResult]
  split
  case isTrue => exact regWrite_getElem ..
  case isFalse =>
    obtain ⟨hx, -, -, -, -⟩ := raiseUnrepresentable_frame (fencode (floatSum a b s)).2 (afterRead b (afterRead a s))
    rw [regWrite_getElem, hx, afterRead_x, afterRead_x]

/-- The float adder's events: those of the two reads in order, then the encoder's, then those of the write (R130). -/
theorem addFloats_diag (a b d : Int) (s : State) :
    (addFloats a b d s).diag =
      s.diag ++ regReadEvents a ++ regReadEvents b ++ floatEvents (floatSum a b s) ++ regWriteEvents d := by
  rw [addFloats_eq, floatEvents]
  split
  case isTrue => rw [regWrite_diag, afterRead_diag, afterRead_diag, List.append_nil]
  case isFalse => rw [regWrite_diag, raiseUnrepresentable_diag, afterRead_diag, afterRead_diag]

/-- Settles O45: the registers are a function of the sum, which is commutative. -/
theorem floatAddCommutes : Obligations.FloatAddCommutes := by
  intro a b d s
  refine Vector.ext fun k hk => ?_
  have hreg (a b : Int) := addFloats_getElem a b d s ⟨k, hk⟩
  simp only [Fin.getElem_fin] at hreg
  rw [hreg, hreg, floatSum_comm]

/-- The operands `1`, `1/16` and `1/16` in registers 1 to 3. -/
def roundingOperands : State :=
  ((State.reset.setReg 1 (Cell.ofString "58")).setReg 2 (Cell.ofString "18")).setReg 3 (Cell.ofString "18")

/-- Each `1/16` alone is truncated away against 1, whose last mantissa place is `1/8`. -/
theorem addFloats_roundingOperands_left :
    (addFloats 4 3 5 (addFloats 1 2 4 roundingOperands)).x[(5 : Fin 16)] = Cell.ofString "58" := by decide

/-- The two of them together make one unit of that place. -/
theorem addFloats_roundingOperands_right :
    (addFloats 1 4 5 (addFloats 2 3 4 roundingOperands)).x[(5 : Fin 16)] = Cell.ofString "59" := by decide

/-- Settles O46, by `(1 + 1/16) + 1/16 = 1` and `1 + (1/16 + 1/16) = 1 + 1/8`. -/
theorem floatAddIsNotAssociative : Obligations.FloatAddIsNotAssociative := by
  refine ⟨roundingOperands, ?_⟩
  rw [addFloats_roundingOperands_left, addFloats_roundingOperands_right]
  decide

/-! ### The tagged entry (R131) -/

theorem aluExecute_zero (a b d : Int) (s : State) : aluExecute 0 a b d s = addIntegers a b d s := rfl

theorem aluExecute_one (a b d : Int) (s : State) : aluExecute 1 a b d s = addFloats a b d s := rfl

theorem aluExecute_of_other_tag {kind : Int} (h0 : kind ≠ 0) (h1 : kind ≠ 1) (a b d : Int) (s : State) :
    aluExecute kind a b d s = s.raise (.invalidOperationTag kind) := by
  rw [aluExecute, if_neg h0, if_neg h1]

/-- Settles O47. -/
theorem aluExecuteDispatchesOnTheTag : Obligations.AluExecuteDispatchesOnTheTag := fun _ a b d s =>
  ⟨aluExecute_zero a b d s, aluExecute_one a b d s, fun h0 h1 => aluExecute_of_other_tag h0 h1 a b d s⟩

/-! ### Through the port (45_host_ports.md R186) -/

/-- In Ready the port runs the tagged entry from the state whose events were emptied (R180). -/
theorem perform_aluExecute {s : State} (h : s.phase = .ready) (kind a b d : Int) :
    perform (.aluExecute kind a b d) s = .next (aluExecute kind a b d s.beginCommand) :=
  (perform_eq_next_iff _ _ _).mpr ⟨h, rfl⟩

theorem regOperand_beginCommand (i : Int) (s : State) : regOperand i s.beginCommand = regOperand i s :=
  regOperand_congr i s.beginCommand_x

/-- Settles O44. -/
theorem addFloatsWritesTheEncodedSum : Obligations.AddFloatsWritesTheEncodedSum := by
  intro a b d s hready k
  have hsum : floatSum a b s.beginCommand = k := by
    rw [floatSum, regOperand_beginCommand, regOperand_beginCommand]
  have hsame := sameButRegisters_aluExecute 1 a b d s.beginCommand
  refine ⟨_, perform_aluExecute hready 1 a b d, fun j => ?register, hsame.mem, hsame.pc, hsame.ir, hsame.phase, ?events⟩
  case register => rw [aluExecute_one, addFloats_getElem, hsum, Cell.ofString_zeros, floatResult, State.beginCommand_x]
  case events => rw [aluExecute_one, addFloats_diag, hsum, floatEvents, State.beginCommand_diag, List.nil_append]

/-- Settles O59. -/
theorem aluPortAddsIntegersOrRejectsTheTag : Obligations.AluPortAddsIntegersOrRejectsTheTag := by
  intro a b d s hready
  refine ⟨?integers, fun kind h0 h1 => ?otherTag⟩
  case integers =>
    intro u v n
    have hu : regOperand a s.beginCommand = u := regOperand_beginCommand a s
    have hv : regOperand b s.beginCommand = v := regOperand_beginCommand b s
    have hn : hexToInt u + hexToInt v = n := rfl
    have hsame := sameButRegisters_aluExecute 0 a b d s.beginCommand
    refine ⟨_, perform_aluExecute hready 0 a b d, fun j => ?register, hsame.mem, hsame.pc, hsame.ir, hsame.phase, ?events⟩
    case register =>
      simp only [aluExecute_zero, addIntegers_getElem, OperandsValid, integerSum, hu, hv, hn, and_assoc, State.beginCommand_x]
    case events =>
      simp only [aluExecute_zero, addIntegers_diag, OperandsValid, integerSum, hu, hv, hn, State.beginCommand_diag, List.nil_append]
  case otherTag =>
    rw [perform_aluExecute hready, aluExecute_of_other_tag h0 h1]
    rfl

end Sys2Proof.Machine
end

section
/-! PROOFS. The control unit (spec 43_control_unit.md): `L`, `S`, `J` and `H` as instructions, `move` through its port, and the
halt notice among the events of a step. -/

namespace Sys2Proof.Machine

/-! ### The operands and the events of an access on either side of the bound (40_storage_ports.md R90, R91) -/

theorem regOperand_of_fin (k : Fin 16) (s : State) : regOperand (k.val : Int) s = s.x[k] := by
  rw [regOperand, regRead_in_range]

theorem regOperand_out_of_range {i : Int} (h : i < 0 ∨ 15 < i) (s : State) : regOperand i s = Cell.zeros := by
  rw [regOperand, regRead_out_of_range h]

theorem regReadEvents_eq_ite (i : Int) :
    regReadEvents i = if 0 ≤ i ∧ i ≤ 15 then [] else [.outOfRangeAddress .reg .read i] := by
  unfold regReadEvents
  rcases regIndex_cases i with ⟨k, hk, h⟩ | ⟨ho, h⟩
  · rw [h, if_pos (by omega)]
  · rw [h, if_neg (by omega)]

theorem regWriteEvents_eq_ite (i : Int) :
    regWriteEvents i = if 0 ≤ i ∧ i ≤ 15 then [] else [.outOfRangeAddress .reg .write i] := by
  unfold regWriteEvents
  rcases regIndex_cases i with ⟨k, hk, h⟩ | ⟨ho, h⟩
  · rw [h, if_pos (by omega)]
  · rw [h, if_neg (by omega)]

/-! ### The halt notice and the shared operations: none of them raises it (60_exceptions.md R198) -/

/-- The halt notice is among the events that the state holds. -/
abbrev State.HoldsHaltNotice (s : State) : Prop := .haltNotice ∈ s.diag

theorem holdsHaltNotice_raise_iff {d : Diag} (h : d ≠ .haltNotice) (s : State) :
    (s.raise d).HoldsHaltNotice ↔ s.HoldsHaltNotice := by
  simp [State.HoldsHaltNotice, h.symm]

theorem haltNotice_notMem_regReadEvents (i : Int) : .haltNotice ∉ regReadEvents i := by
  rw [regReadEvents_eq_ite]
  split
  case isTrue => simp
  case isFalse => simp

theorem haltNotice_notMem_regWriteEvents (i : Int) : .haltNotice ∉ regWriteEvents i := by
  rw [regWriteEvents_eq_ite]
  split
  case isTrue => simp
  case isFalse => simp

theorem haltNotice_notMem_fetchEvents (s : State) : .haltNotice ∉ fetchEvents s := by
  unfold fetchEvents
  split
  case isTrue => simp
  case isFalse => simp

theorem holdsHaltNotice_afterRead_iff (i : Int) (s : State) : (afterRead i s).HoldsHaltNotice ↔ s.HoldsHaltNotice := by
  simp [State.HoldsHaltNotice, haltNotice_notMem_regReadEvents]

theorem holdsHaltNotice_regWrite_iff (i : Int) (v : Cell) (s : State) :
    (regWrite i v s).HoldsHaltNotice ↔ s.HoldsHaltNotice := by
  simp [State.HoldsHaltNotice, regWrite_diag, haltNotice_notMem_regWriteEvents]

theorem holdsHaltNotice_memRead_iff (a : Int) (s : State) : (memRead a s).2.HoldsHaltNotice ↔ s.HoldsHaltNotice := by
  rcases memIndex_cases a with ⟨k, hk, rfl, -⟩ | ⟨ho, -⟩
  · rw [memRead_in_range hk]
  · rw [memRead_out_of_range ho]
    exact holdsHaltNotice_raise_iff Diag.noConfusion s

theorem holdsHaltNotice_memWrite_iff (a : Int) (v : Cell) (s : State) :
    (memWrite a v s).HoldsHaltNotice ↔ s.HoldsHaltNotice := by
  rcases memIndex_cases a with ⟨k, hk, rfl, -⟩ | ⟨ho, -⟩
  · rw [memWrite_in_range hk]
    rfl
  · rw [memWrite_out_of_range ho]
    exact holdsHaltNotice_raise_iff Diag.noConfusion s

theorem holdsHaltNotice_cuLoad_iff (reg a : Int) (s : State) : (cuLoad reg a s).HoldsHaltNotice ↔ s.HoldsHaltNotice :=
  (holdsHaltNotice_regWrite_iff ..).trans (holdsHaltNotice_memRead_iff a s)

theorem holdsHaltNotice_cuStore_iff (reg a : Int) (s : State) : (cuStore reg a s).HoldsHaltNotice ↔ s.HoldsHaltNotice := by
  rw [cuStore, regRead_eq_afterRead]
  exact (holdsHaltNotice_memWrite_iff ..).trans (holdsHaltNotice_afterRead_iff reg s)

theorem holdsHaltNotice_cuJump_iff (how : Config.JumpCompare) (r : Int) (s : State) :
    (cuJump how r s).HoldsHaltNotice ↔ s.HoldsHaltNotice := by
  obtain ⟨-, -, -, -, hdiag⟩ := cuJump_frame how r s
  simp [State.HoldsHaltNotice, hdiag, haltNotice_notMem_regReadEvents]

theorem holdsHaltNotice_addIntegers_iff (a b d : Int) (s : State) :
    (addIntegers a b d s).HoldsHaltNotice ↔ s.HoldsHaltNotice := by
  have hreads : (afterRead b (afterRead a s)).HoldsHaltNotice ↔ s.HoldsHaltNotice :=
    (holdsHaltNotice_afterRead_iff b _).trans (holdsHaltNotice_afterRead_iff a s)
  rw [addIntegers_eq]
  split
  case isTrue => exact (holdsHaltNotice_raise_iff Diag.noConfusion _).trans hreads
  case isFalse =>
    split
    case isTrue => exact (holdsHaltNotice_raise_iff Diag.noConfusion _).trans hreads
    case isFalse => exact (holdsHaltNotice_regWrite_iff ..).trans hreads

/-! ### The halt notice and the step (R148) -/

/-- Of the five instructions only `H` raises the notice. -/
theorem holdsHaltNotice_of_exec {i : Instr} {s t : State} (h : exec i s = .next t) :
    t.HoldsHaltNotice ↔ s.HoldsHaltNotice ∨ i.opcode = 0x48#8 := by
  have unchanged (hiff : t.HoldsHaltNotice ↔ s.HoldsHaltNotice) (hop : i.opcode ≠ 0x48#8) :
      t.HoldsHaltNotice ↔ s.HoldsHaltNotice ∨ i.opcode = 0x48#8 := by
    rw [hiff, or_iff_left hop]
  cases i with
  | load f =>
    obtain rfl := Host.Outcome.next.inj h
    exact unchanged (holdsHaltNotice_cuLoad_iff ..) (show 0x4C#8 ≠ 0x48#8 by decide)
  | store f =>
    obtain rfl := Host.Outcome.next.inj h
    exact unchanged (holdsHaltNotice_cuStore_iff ..) (show 0x53#8 ≠ 0x48#8 by decide)
  | addInt f =>
    obtain rfl := Host.Outcome.next.inj h
    exact unchanged (holdsHaltNotice_addIntegers_iff ..) (show 0x41#8 ≠ 0x48#8 by decide)
  | jump f =>
    obtain rfl := Host.Outcome.next.inj h
    exact unchanged (holdsHaltNotice_cuJump_iff ..) (show 0x4A#8 ≠ 0x48#8 by decide)
  | halt f =>
    obtain rfl := Host.Outcome.next.inj h
    exact iff_of_true (List.mem_append_right _ (List.mem_singleton_self _)) (.inr rfl)

/-- The execute part of a word raises the notice exactly when the word begins with `H`. -/
theorem holdsHaltNotice_of_executeDecoded {w : Cell} {s t : State} (h : executeDecoded (decode w) s = .next t) :
    t.HoldsHaltNotice ↔ s.HoldsHaltNotice ∨ w.slot 0 = 0x48#8 := by
  cases hd : decode w with
  | instruction i =>
    obtain ⟨hop, -⟩ := (decode_eq_instruction_iff w i).mp hd
    rw [hd] at h
    rw [← hop]
    exact holdsHaltNotice_of_exec h
  | invalidOpcode ch =>
    obtain ⟨hno, -⟩ := (decode_eq_invalidOpcode_iff w ch).mp hd
    have hslot : w.slot 0 ≠ 0x48#8 := (hno (.halt (decodeFields w))).symm
    rw [hd] at h
    obtain rfl := Host.Outcome.next.inj h
    rw [or_iff_left hslot]
    exact holdsHaltNotice_raise_iff Diag.noConfusion s

/-- Settles O31: a step starts from its fetch's events, which hold no notice, and ends with the execute part's. -/
theorem haltNoticeExactlyAfterH : Obligations.HaltNoticeExactlyAfterH := by
  intro s t h
  obtain ⟨-, u, hu, rfl⟩ := (step_eq_next_iff s t).mp h
  have hentry : ¬ (stepEntry s).HoldsHaltNotice := by
    rw [stepEntry_eq]
    exact haltNotice_notMem_fetchEvents s
  exact (holdsHaltNotice_of_executeDecoded hu).trans (or_iff_right hentry)

/-! ### The instructions (R140, R141, R146, R148) -/

/-- Settles O17: `L` on an address that a word can hold is one checked write of the cell there. -/
theorem loadCopiesTheCell : Obligations.LoadCopiesTheCell := by
  intro f s ⟨_, _, _, haddr, _⟩
  have hload : cuLoad f.r f.address s = regWrite f.r (s.mem.read f.address) s := cuLoad_eq f.r (Nat.lt_succ_of_le haddr) s
  obtain ⟨hm, hp, hi, hf, hdiag⟩ := regWrite_frame f.r (s.mem.read f.address) s
  refine ⟨_, (exec_load f s).trans (congrArg _ hload), regWrite_getElem f.r _ s, hm, hp, hi, hf, ?events⟩
  case events => rw [hdiag, regWriteEvents_eq_ite]

/-- Settles O18: `S` on an address that a word can hold is one raw write of the register operand. -/
theorem storeCopiesTheCell : Obligations.StoreCopiesTheCell := by
  intro f s ⟨_, _, _, haddr, _⟩ hm
  have hstore : cuStore f.r f.address s = (afterRead f.r s).setMem f.address (regOperand f.r s) :=
    cuStore_eq f.r (Nat.lt_succ_of_le haddr) s
  have hread (b : Nat) : (s.mem.write f.address (regOperand f.r s)).read b =
      if b = f.address then regOperand f.r s else s.mem.read b := Memory.read_write hm f.address b _
  have hwritten := (hread f.address).trans (if_pos rfl)
  refine ⟨_, (exec_store f s).trans (congrArg _ hstore), fun k hk => ?inRange, fun ho => ?outOfRange, fun b hb => ?other,
    rfl, rfl, rfl, rfl, ?events⟩
  case inRange => exact hwritten.trans (hk ▸ regOperand_of_fin k s)
  case outOfRange =>
    rw [Cell.ofString_zeros]
    exact hwritten.trans (regOperand_out_of_range (by omega) s)
  case other => exact (hread b).trans (if_neg fun heq => hb (congrArg Nat.cast heq))
  case events => rw [State.setMem_diag, afterRead_diag, regReadEvents_eq_ite]

/-- Settles O21: `J` is the jump under the condition at its default, cell equality. -/
theorem jumpGoesToTheRegister : Obligations.JumpGoesToTheRegister := by
  intro f s c
  have htaken : jumpTaken Config.jumpCompare c s.x[0] = true ↔ c = s.x[0] := jumpTaken_cell_iff c s.x[0]
  refine ⟨_, exec_jump f s, fun heq hc => ?taken, fun hne => ?notTaken, cuJump_frame Config.jumpCompare f.r s⟩
  case taken => exact cuJump_pc_toNat_of_taken (htaken.mpr heq) hc
  case notTaken => exact cuJump_pc_of_not_taken (mt htaken.mp hne)

/-- Settles O23. -/
theorem haltRaisesTheNoticeAlone : Obligations.HaltRaisesTheNoticeAlone := exec_halt

/-! ### `move` through its port (R142; 45_host_ports.md R186) -/

/-- In Ready the port runs `move` from the state whose events were emptied (R180). -/
theorem perform_move {s : State} (h : s.phase = .ready) (src dst : Int) :
    perform (.move src dst) s = .next (cuMove src dst s.beginCommand) :=
  (perform_eq_next_iff _ _ _).mpr ⟨h, rfl⟩

/-- Settles O53: `move` is one checked read and one checked write. -/
theorem moveCopiesTheRegister : Obligations.MoveCopiesTheRegister := by
  intro src dst s hready
  have hsame := sameButRegisters_cuMove src dst s.beginCommand
  refine ⟨_, perform_move hready src dst, fun j => ?register, hsame.mem, hsame.pc, hsame.ir, hsame.phase, ?events⟩
  case register => rw [cuMove_eq, regWrite_getElem, regOperand_beginCommand, afterRead_x, State.beginCommand_x]
  case events => rw [cuMove_eq, regWrite_diag, afterRead_diag, State.beginCommand_diag, List.nil_append]

end Sys2Proof.Machine
end

section
/-! PROOFS. The instruction cycle (spec 44_instruction_cycle.md): the step from Ready and out of it (R160 to R164), the word that
is no instruction (R161, R165), what a step may write (R166), and the driver's run (R167). -/

namespace Sys2Proof.Machine

/-! ### The fetch beyond memory, and the state in which the execute part runs (R161, R162) -/

theorem fetchedCell_of_le {s : State} (h : 256 ≤ s.pc.toNat) : fetchedCell s = Cell.zeros := if_neg (Nat.not_lt.mpr h)

theorem fetchEvents_of_lt {s : State} (h : s.pc.toNat < 256) : fetchEvents s = [] := if_pos h

theorem fetchEvents_of_le {s : State} (h : 256 ≤ s.pc.toNat) :
    fetchEvents s = [.outOfRangeAddress .mem .read (s.pc.toNat : Int)] :=
  if_neg (Nat.not_lt.mpr h)

@[simp] theorem stepEntry_x (s : State) : (stepEntry s).x = s.x := by rw [stepEntry_eq]
@[simp] theorem stepEntry_mem (s : State) : (stepEntry s).mem = s.mem := by rw [stepEntry_eq]
@[simp] theorem stepEntry_pc (s : State) : (stepEntry s).pc = s.pc + 1#32 := by rw [stepEntry_eq]
@[simp] theorem stepEntry_ir (s : State) : (stepEntry s).ir = fetchedCell s := by rw [stepEntry_eq]
@[simp] theorem stepEntry_phase (s : State) : (stepEntry s).phase = .decoded := rfl

/-! ### The step from Ready and out of it (R160, R164; 45_host_ports.md R180) -/

theorem step_of_executeDecoded {s u : State} (hready : s.phase = .ready)
    (hu : executeDecoded (decode (fetchedCell s)) (stepEntry s) = .next u) : step s = .next { u with phase := .ready } :=
  (step_eq_next_iff s _).mpr ⟨hready, u, hu, rfl⟩

theorem exists_step_of_ready {s : State} (hready : s.phase = .ready) : ∃ t, step s = .next t ∧ t.phase = .ready :=
  have ⟨_, hu⟩ := executeDecoded_answers_next (decode (fetchedCell s)) (stepEntry s)
  ⟨_, step_of_executeDecoded hready hu, rfl⟩

theorem step_of_not_ready {s : State} (h : s.phase ≠ .ready) : step s = .refused (.notReady s.phase) := if_neg h

/-- Settles O25. -/
theorem stepIsTotalFromReady : Obligations.StepIsTotalFromReady := fun _ => ⟨exists_step_of_ready, step_of_not_ready⟩

/-- Settles O24: in memory the execute part runs on the state that the statement writes out. -/
theorem stepRunsTheDecodedInstruction : Obligations.StepRunsTheDecodedInstruction := by
  intro s i hready hpc hdecode
  have hfetched : fetchedCell s = s.mem.read s.pc.toNat := fetchedCell_of_lt hpc
  have hentry := stepEntry_eq s
  rw [hfetched, fetchEvents_of_lt hpc] at hentry
  rw [← hentry]
  obtain ⟨t, ht⟩ := exec_answers_next i (stepEntry s)
  have hexec : executeDecoded (decode (fetchedCell s)) (stepEntry s) = .next t := by rw [hfetched, hdecode]; exact ht
  exact ⟨t, ht, step_of_executeDecoded hready hexec⟩

/-- Settles O34: the execute part leaves the phase at Decoded, and the step is what follows it. -/
theorem phasesArePassedInOrder : Obligations.PhasesArePassedInOrder := by
  refine fun s => ⟨rfl, stepEntry_phase s, fun u hu => ?_⟩
  obtain ⟨-, hphase⟩ := executeDecoded_frame hu
  rw [stepEntry_ir] at hu
  exact ⟨hphase.trans (stepEntry_phase s), rfl, rfl, fun hready => step_of_executeDecoded (u := u) hready hu⟩

/-- A step empties the events itself, so it is the same from the state whose events were emptied (R160). -/
theorem step_beginCommand (s : State) : step s.beginCommand = step s := rfl

/-- Settles O60: in Ready the port empties the events and steps; out of Ready both refuse. -/
theorem runNextStepCommandIsTheStep : Obligations.RunNextStepCommandIsTheStep := by
  intro s
  by_cases hready : s.phase = .ready
  · calc perform .runNextStep s = step s.beginCommand := if_pos hready
      _ = step s := step_beginCommand s
  · calc perform .runNextStep s = .refused (.notReady s.phase) := if_neg hready
      _ = step s := (step_of_not_ready hready).symm

/-! ### The word that is no instruction, in memory and beyond it (R161, R165) -/

theorem decode_of_notMem_opcodeCharacters {w : Cell} (h : w.slot 0 ∉ (Cell.ofString "LSAJH").chars) :
    decode w = .invalidOpcode (w.slot 0) := by
  refine decode_of_not_opcode fun i hop => h ?_
  rw [mem_opcodeCharacters_iff]
  exact (exists_instr_of_opcode_iff _ i.fields).mp ⟨i, hop, rfl⟩

/-- Settles O26: the execute part of such a word raises one event after the fetch's own. -/
theorem invalidWordIsSteppedOver : Obligations.InvalidWordIsSteppedOver := by
  intro s hready hop
  have hexec : executeDecoded (decode (fetchedCell s)) (stepEntry s) =
      .next ((stepEntry s).raise (.invalidOpcode ((fetchedCell s).slot 0))) := by
    rw [decode_of_notMem_opcodeCharacters hop]
    rfl
  rw [step_of_executeDecoded hready hexec, stepEntry_eq, ← hready]
  rfl

/-- Settles O27: beyond memory the fetched cell is `"00"`, which begins with no opcode. -/
theorem fetchBeyondMemory : Obligations.FetchBeyondMemory := by
  intro s hready hpc
  have hfetched : fetchedCell s = Cell.zeros := fetchedCell_of_le hpc
  have hop : (fetchedCell s).slot 0 ∉ (Cell.ofString "LSAJH").chars := by
    rw [hfetched]
    decide
  refine ⟨_, invalidWordIsSteppedOver s hready hop, ?counter, ?word, ?events, rfl, rfl, hready⟩
  case counter => exact BitVec.toNat_add s.pc 1#32
  case word => exact hfetched.trans Cell.ofString_zeros.symm
  case events =>
    rw [fetchEvents_of_le hpc, hfetched]
    rfl

/-! ### What a step may write, by the opcode (R166) -/

theorem regWrite_getElem_eq_or (i : Int) (v : Cell) (s : State) (k : Fin 16) :
    (regWrite i v s).x[k] = s.x[k] ∨ (k.val : Int) = i := by
  rw [regWrite_getElem]
  by_cases hk : (k.val : Int) = i
  · exact .inr hk
  · exact .inl (if_neg hk)

theorem addIntegers_getElem_eq_or (a b d : Int) (s : State) (k : Fin 16) :
    (addIntegers a b d s).x[k] = s.x[k] ∨ (k.val : Int) = d := by
  rw [addIntegers_getElem]
  by_cases hk : (k.val : Int) = d
  · exact .inr hk
  · exact .inl (if_neg fun ⟨_, _, heq⟩ => hk heq)

theorem memWrite_read_eq_or (a : Int) (v : Cell) (s : State) (b : Nat) :
    (memWrite a v s).mem.read b = s.mem.read b ∨ (b : Int) = a := by
  rcases memIndex_cases a with ⟨k, hk, rfl, -⟩ | ⟨ho, -⟩
  · rw [memWrite_in_range hk]
    by_cases hb : b = k
    · exact .inr (congrArg Nat.cast hb)
    · exact .inl (readEntries_writeEntries_other s.mem.entries v hb)
  · rw [memWrite_out_of_range ho]
    exact .inl rfl

theorem cuJump_pc_eq_or (how : Config.JumpCompare) (r : Int) (s : State) :
    (cuJump how r s).pc = s.pc ∨ (cuJump how r s).pc = BitVec.ofNat 32 (hexToInt (regOperand r s)) := by
  by_cases h : jumpTaken how (regOperand r s) s.x[0] = true
  · exact .inr (by rw [cuJump_of_taken h])
  · exact .inl (cuJump_pc_of_not_taken h)

theorem sameButRegisters_memRead (a : Int) (s : State) : SameButRegisters (memRead a s).2 s :=
  have ⟨_, hm, hp, hi, hf⟩ := memRead_frame a s
  ⟨hm, hp, hi, hf⟩

theorem sameButRegisters_cuLoad (reg a : Int) (s : State) : SameButRegisters (cuLoad reg a s) s :=
  (sameButRegisters_regWrite ..).trans (sameButRegisters_memRead a s)

/-- From `s` to `t` only what R166 allows an instruction of opcode `op` and fields `f` was written. -/
structure WritesByOpcode (op : CharCode) (f : Fields) (s t : State) : Prop where
  pc : t.pc = s.pc ∨ op = 0x4A#8 ∧ t.pc = BitVec.ofNat 32 (hexToInt (regOperand f.r s))
  regs : ∀ k : Fin 16, t.x[k] = s.x[k] ∨ op = 0x4C#8 ∧ (k.val : Int) = f.r ∨ op = 0x41#8 ∧ (k.val : Int) = f.t
  mem : ∀ a : Nat, t.mem.read a = s.mem.read a ∨ op = 0x53#8 ∧ a = f.address

theorem writesByOpcode_raise (op : CharCode) (f : Fields) (d : Diag) (s : State) : WritesByOpcode op f s (s.raise d) :=
  ⟨.inl rfl, fun _ => .inl rfl, fun _ => .inl rfl⟩

theorem writesByOpcode_cuLoad (f : Fields) (s : State) : WritesByOpcode 0x4C#8 f s (cuLoad f.r f.address s) := by
  have hsame := sameButRegisters_cuLoad f.r f.address s
  have hread : (memRead f.address s).2.x = s.x := (memRead_frame f.address s).1
  refine ⟨.inl hsame.pc, fun k => ?_, fun _ => .inl (by rw [hsame.mem])⟩
  have hwrite := regWrite_getElem_eq_or f.r (memRead f.address s).1 (memRead f.address s).2 k
  rw [hread] at hwrite
  exact hwrite.imp_right fun hk => .inl ⟨rfl, hk⟩

theorem writesByOpcode_cuStore (f : Fields) (s : State) : WritesByOpcode 0x53#8 f s (cuStore f.r f.address s) := by
  rw [cuStore, regRead_eq_afterRead]
  obtain ⟨hx, hpc, -, -⟩ := memWrite_frame f.address (regOperand f.r s) (afterRead f.r s)
  refine ⟨.inl hpc, fun _ => .inl (by rw [hx, afterRead_x]), fun a => ?_⟩
  exact (memWrite_read_eq_or f.address (regOperand f.r s) (afterRead f.r s) a).imp_right fun ha => ⟨rfl, Int.ofNat.inj ha⟩

theorem writesByOpcode_addIntegers (f : Fields) (s : State) :
    WritesByOpcode 0x41#8 f s (addIntegers f.r f.s f.t s) := by
  have hsame := sameButRegisters_addIntegers f.r f.s f.t s
  refine ⟨.inl hsame.pc, fun k => ?_, fun _ => .inl (by rw [hsame.mem])⟩
  exact (addIntegers_getElem_eq_or f.r f.s f.t s k).imp_right fun hk => .inr ⟨rfl, hk⟩

theorem writesByOpcode_cuJump (how : Config.JumpCompare) (f : Fields) (s : State) :
    WritesByOpcode 0x4A#8 f s (cuJump how f.r s) := by
  obtain ⟨hx, hm, -, -, -⟩ := cuJump_frame how f.r s
  refine ⟨?_, fun _ => .inl (by rw [hx]), fun _ => .inl (by rw [hm])⟩
  exact (cuJump_pc_eq_or how f.r s).imp_right fun hpc => ⟨rfl, hpc⟩

theorem writesByOpcode_of_exec {i : Instr} {s t : State} (h : exec i s = .next t) :
    WritesByOpcode i.opcode i.fields s t := by
  cases i with
  | load f => exact Host.Outcome.next.inj h ▸ writesByOpcode_cuLoad f s
  | store f => exact Host.Outcome.next.inj h ▸ writesByOpcode_cuStore f s
  | addInt f => exact Host.Outcome.next.inj h ▸ writesByOpcode_addIntegers f s
  | jump f => exact Host.Outcome.next.inj h ▸ writesByOpcode_cuJump Config.jumpCompare f s
  | halt f => exact Host.Outcome.next.inj h ▸ writesByOpcode_raise _ f .haltNotice s

theorem writesByOpcode_of_executeDecoded {w : Cell} {s t : State} (h : executeDecoded (decode w) s = .next t) :
    WritesByOpcode (w.slot 0) (decodeFields w) s t := by
  cases hd : decode w with
  | instruction i =>
    obtain ⟨hop, hfields⟩ := (decode_eq_instruction_iff w i).mp hd
    rw [hd] at h
    rw [← hop, ← hfields]
    exact writesByOpcode_of_exec h
  | invalidOpcode ch =>
    rw [hd] at h
    exact Host.Outcome.next.inj h ▸ writesByOpcode_raise _ _ (.invalidOpcode ch) s

/-- Settles O29: fetch writes `ir` and advances `pc`; the rest is what the execute part may write. -/
theorem stepWritesByOpcode : Obligations.StepWritesByOpcode := by
  intro s t h w f
  have hir : t.ir = w := step_ir h
  obtain ⟨-, u, hu, rfl⟩ := (step_eq_next_iff s t).mp h
  obtain ⟨hpc, hregs, hmem⟩ := writesByOpcode_of_executeDecoded hu
  rw [stepEntry_pc, regOperand_congr _ (stepEntry_x s)] at hpc
  rw [stepEntry_x] at hregs
  rw [stepEntry_mem] at hmem
  refine ⟨hir, fun hop => ?otherPc, fun _ => ?jumpPc, fun k hne => ?registers, fun a hne => ?memory⟩
  case otherPc => exact hpc.resolve_right fun ⟨hjump, _⟩ => hop hjump
  case jumpPc => exact hpc.imp_right And.right
  case registers => exact (hregs k).resolve_left hne
  case memory => exact (hmem a).resolve_left hne

/-! ### The driver's run (R167) -/

/-- The driver, given at most `k` steps from `s`, ends in `t` after `j` steps of the machine: the first that noticed a halt, or
the last it may take. -/
structure DrivesTo (k j : Nat) (s t : State) : Prop where
  le : j ≤ k
  drive : drive k s = .next t
  run : Host.Core.run core j s = .next t
  noticed : j < k → 0 < j ∧ t.haltNoticed = true
  notBefore : ∀ (i : Nat) (u : State), 0 < i → i < j → Host.Core.run core i s = .next u → u.haltNoticed = false

theorem drivesTo_zero (s : State) : DrivesTo 0 0 s s where
  le := Nat.le_refl 0
  drive := rfl
  run := core_run_zero s
  noticed h := absurd h (Nat.not_lt_zero 0)
  notBefore i _ _ hi := absurd hi (Nat.not_lt_zero i)

section
variable {s t : State} (hst : step s = .next t)
include hst

/-- A step that notices a halt ends the driver's run. -/
theorem drivesTo_one (hnotice : t.haltNoticed = true) (k : Nat) : DrivesTo (k + 1) 1 s t where
  le := Nat.le_add_left 1 k
  drive := by rw [drive_succ k hst, if_pos hnotice]
  run := core_run_succ 0 hst
  noticed _ := ⟨Nat.one_pos, hnotice⟩
  notBefore _ _ hpos hi := absurd hi (Nat.not_lt.mpr hpos)

/-- After any other step the driver goes on from the next state. -/
theorem DrivesTo.succ (hnotice : t.haltNoticed = false) {k j : Nat} {u : State} (h : DrivesTo k j t u) :
    DrivesTo (k + 1) (j + 1) s u where
  le := Nat.succ_le_succ h.le
  drive := by
    rw [drive_succ k hst, hnotice]
    exact h.drive
  run := (core_run_succ j hst).trans h.run
  noticed hj := ⟨Nat.succ_pos j, (h.noticed (Nat.lt_of_succ_lt_succ hj)).2⟩
  notBefore i v hpos hi hv := by
    obtain ⟨i, rfl⟩ := Nat.exists_eq_add_one.mpr hpos
    rw [core_run_succ i hst] at hv
    cases i with
    | zero => exact Host.Outcome.next.inj hv ▸ hnotice
    | succ i => exact h.notBefore (i + 1) v (Nat.succ_pos i) (Nat.lt_of_succ_lt_succ hi) hv

end

theorem exists_drivesTo (k : Nat) {s : State} (hready : s.phase = .ready) : ∃ j t, DrivesTo k j s t := by
  induction k generalizing s with
  | zero => exact ⟨0, s, drivesTo_zero s⟩
  | succ k ih =>
    obtain ⟨t, hst, ht⟩ := exists_step_of_ready hready
    cases hnotice : t.haltNoticed with
    | true => exact ⟨1, t, drivesTo_one hst hnotice k⟩
    | false =>
      obtain ⟨j, u, hrun⟩ := ih ht
      exact ⟨j + 1, u, hrun.succ hst hnotice⟩

/-- Settles O57. -/
theorem driverStopsAtTheHaltNotice : Obligations.DriverStopsAtTheHaltNotice := by
  intro k s hready
  obtain ⟨j, t, hle, hdrive, hrun, hnoticed, hnotBefore⟩ := exists_drivesTo k hready
  exact ⟨j, t, hle, hdrive, hrun, hnoticed, hnotBefore⟩

end Sys2Proof.Machine
end

section
/-! PROOFS. The host ports (spec 45_host_ports.md): what a transaction is (R180), the reading ports (R181, R183, R185), the writing
ports (R182, R184), the loader's sequence of writes (R184), and what a step does not see of the command before it (R187). -/

namespace Sys2Proof.Machine

/-! ### One transaction (R180) -/

theorem perform_of_ready {s : State} (h : s.phase = .ready) (c : Command) : perform c s = commandEffect c s.beginCommand :=
  if_pos h

theorem perform_of_not_ready {s : State} (h : s.phase ≠ .ready) (c : Command) : perform c s = .refused (.notReady s.phase) :=
  if_neg h

theorem commandEffect_memoryWrite_of_not_wellFormed {v : Cell} (hv : ¬ v.WellFormed) (a : Int) (s : State) :
    commandEffect (.memoryWrite a v) s = .refused (.nonCanonicalCell v) :=
  if_neg hv

/-- From Ready every command but the write of a cell that cannot be held completes, and ends in Ready. -/
theorem exists_commandEffect_of_ready {c : Command} {s : State} (hready : s.phase = .ready)
    (hcell : ∀ a v, c = .memoryWrite a v → v.WellFormed) : ∃ t, commandEffect c s = .next t ∧ t.phase = .ready := by
  cases c with
  | reset start => exact ⟨State.resetAt start, rfl, State.resetAt_phase start⟩
  | runNextStep => exact exists_step_of_ready hready
  | getProgramCounter => exact ⟨s, rfl, hready⟩
  | setProgramCounter v => exact ⟨{ s with pc := v }, rfl, hready⟩
  | getRegister i =>
    refine ⟨(regRead i s).2, rfl, ?_⟩
    rw [regRead_state]
    exact hready
  | memoryRead a => exact ⟨(memRead a s).2, rfl, (sameButRegisters_memRead a s).phase.trans hready⟩
  | memoryWrite a v =>
    obtain ⟨-, -, -, hphase⟩ := memWrite_frame a v s
    exact ⟨memWrite a v s, (commandEffect_memoryWrite_eq_next_iff a v s _).mpr ⟨hcell a v rfl, rfl⟩, hphase.trans hready⟩
  | move src dst => exact ⟨cuMove src dst s, rfl, (sameButRegisters_cuMove src dst s).phase.trans hready⟩
  | aluExecute kind a b d =>
    exact ⟨Machine.aluExecute kind a b d s, rfl, (sameButRegisters_aluExecute kind a b d s).phase.trans hready⟩

/-- Settles O48. -/
theorem commandsRunInReadyOnly : Obligations.CommandsRunInReadyOnly := by
  refine fun c s => ⟨fun hne => perform_of_not_ready hne c, fun hready hcell => ?completes, fun hready a v hc hv => ?refused⟩
  case completes =>
    rw [perform_of_ready hready]
    exact exists_commandEffect_of_ready (s := s.beginCommand) hready hcell
  case refused =>
    rw [hc, perform_of_ready hready]
    exact commandEffect_memoryWrite_of_not_wellFormed hv a s.beginCommand

/-! ### What a step does not see of the command before it (R187; 10_state.md R33) -/

/-- The fetch empties the events and overwrites `ir`, and it reads neither. -/
theorem stepEntry_forgets (s : State) (d : List Diag) (w : Cell) : stepEntry { s with diag := d, ir := w } = stepEntry s := by
  calc stepEntry { s with diag := d, ir := w }
      = { s with ir := fetchedCell s, pc := s.pc + 1#32, phase := .decoded, diag := fetchEvents s } := stepEntry_eq _
    _ = stepEntry s := (stepEntry_eq s).symm

/-- Settles O32: the execute part runs from the same state. -/
theorem stepForgetsEventsAndIr : Obligations.StepForgetsEventsAndIr := by
  intro s d w
  simp only [step, runNextStep, stepEntry_forgets]

/-! ### The reading ports (R181, R183, R185) -/

section
variable {s : State} (hready : s.phase = .ready)
include hready

theorem perform_getRegister (i : Int) : perform (.getRegister i) s = .next (regRead i s.beginCommand).2 :=
  perform_of_ready hready _

theorem perform_memoryRead (a : Int) : perform (.memoryRead a) s = .next (memRead a s.beginCommand).2 :=
  perform_of_ready hready _

end

/-- Settles O49: each port is one checked read, which answers and raises as its index stands to the bound. -/
theorem readingPortsChangeNothing : Obligations.ReadingPortsChangeNothing := by
  intro s hready
  rw [Cell.ofString_zeros]
  refine ⟨⟨perform_of_ready hready _, rfl⟩, fun k => ?register, fun i hi => ?noRegister, fun a ha => ?cell, fun a ha => ?noCell⟩
  case register =>
    rw [perform_getRegister hready, replyTo, regRead_in_range, regRead_in_range]
    exact ⟨rfl, rfl⟩
  case noRegister =>
    have hout : i < 0 ∨ 15 < i := by omega
    rw [perform_getRegister hready, replyTo, regRead_out_of_range hout, regRead_out_of_range hout]
    exact ⟨rfl, rfl⟩
  case cell =>
    rw [perform_memoryRead hready, replyTo, memRead_in_range ha, memRead_in_range ha]
    exact ⟨rfl, rfl⟩
  case noCell =>
    have hout : a < 0 ∨ 255 < a := by omega
    rw [perform_memoryRead hready, replyTo, memRead_out_of_range hout, memRead_out_of_range hout]
    exact ⟨rfl, rfl⟩

/-! ### The writing ports (R182, R184) -/

/-- Settles O50. -/
theorem setProgramCounterWritesPcAlone : Obligations.SetProgramCounterWritesPcAlone := fun v _ hready =>
  perform_of_ready hready (.setProgramCounter v)

/-- In Ready the write port is one checked write of a cell that can be held. -/
theorem perform_memoryWrite {s : State} (hready : s.phase = .ready) (a : Int) {v : Cell} (hv : v.WellFormed) :
    perform (.memoryWrite a v) s = .next (memWrite a v s.beginCommand) :=
  (perform_eq_next_iff _ _ _).mpr ⟨hready, (commandEffect_memoryWrite_eq_next_iff a v _ _).mpr ⟨hv, rfl⟩⟩

/-- Settles O52. -/
theorem memoryWritePort : Obligations.MemoryWritePort := by
  intro v s hready hm hv
  refine ⟨fun a ha => ?inRange, fun a ha => ?outOfRange⟩
  case inRange =>
    refine ⟨s.beginCommand.setMem a v, ?_, fun b => Memory.read_write hm a b v, rfl⟩
    rw [perform_memoryWrite hready _ hv, memWrite_in_range ha]
  case outOfRange =>
    have hout : a < 0 ∨ 255 < a := by omega
    rw [perform_memoryWrite hready _ hv, memWrite_out_of_range hout]
    rfl

/-! ### The loader's sequence of writes (R184) -/

/-- The events of one write to the address `a`, which has a cell below 256. -/
def memWriteEvents (a : Nat) : List Diag := if a < 256 then [] else [.outOfRangeAddress .mem .write (a : Int)]

theorem memWrite_diag (a : Nat) (v : Cell) (s : State) : (memWrite (a : Int) v s).diag = s.diag ++ memWriteEvents a := by
  unfold memWriteEvents
  split
  case isTrue ha => rw [memWrite_in_range ha, State.setMem_diag, List.append_nil]
  case isFalse ha => rw [memWrite_out_of_range (by omega), State.raise_diag]

/-- What `MemWrite` leaves in each cell of memory, in range or out of it: a refused write names no cell below 256. -/
theorem memWrite_read {s : State} (hm : s.mem.WellFormed) (a : Nat) (v : Cell) {b : Nat} (hb : b < 256) :
    (memWrite (a : Int) v s).mem.read b = if b = a then v else s.mem.read b := by
  by_cases ha : a < 256
  · rw [memWrite_in_range ha]
    exact Memory.read_write hm a b v
  · rw [memWrite_out_of_range (by omega), State.raise_mem, if_neg (by omega)]

theorem performAll_cons {c : Command} {s u : State} (h : perform c s = .next u) (rest : List Command) :
    performAll (c :: rest) s = performAll rest u := by
  simp only [performAll, h]

/-- The writes of `tokens` from the address `a` upward lead from `s` to `t`: the cells below `a` stay, the cells from `a` on hold
the tokens as far as they reach, and the events are those of the last write, if any. -/
structure LoadsFrom (a : Nat) (tokens : List Cell) (s t : State) : Prop where
  performed : performAll (loadCommands a tokens) s = .next t
  below : ∀ b < 256, b < a → t.mem.read b = s.mem.read b
  filled : ∀ i, a + i < 256 → t.mem.read (a + i) = (tokens[i]?).getD (s.mem.read (a + i))
  wellFormed : t.WellFormed
  x : t.x = s.x
  pc : t.pc = s.pc
  ir : t.ir = s.ir
  diag : t.diag = if tokens.length = 0 then s.diag else memWriteEvents (a + tokens.length - 1)

theorem loadsFrom_nil (a : Nat) {s : State} (hs : s.WellFormed) : LoadsFrom a [] s s where
  performed := rfl
  below _ _ _ := rfl
  filled _ _ := rfl
  wellFormed := hs
  x := rfl
  pc := rfl
  ir := rfl
  diag := rfl

/-- One more token in front: the write at `a`, whose cell the later writes, all above it, leave as it is. -/
theorem LoadsFrom.cons {a : Nat} {v : Cell} {rest : List Cell} {s t : State} (hs : s.WellFormed) (hv : v.WellFormed)
    (h : LoadsFrom (a + 1) rest (memWrite (a : Int) v s.beginCommand) t) : LoadsFrom a (v :: rest) s t := by
  obtain ⟨-, hm, -, hready⟩ := hs
  have hwrite {b : Nat} (hb : b < 256) : (memWrite (a : Int) v s.beginCommand).mem.read b = if b = a then v else s.mem.read b :=
    memWrite_read (s := s.beginCommand) hm a v hb
  obtain ⟨hx, hpc, hir, -⟩ := memWrite_frame a v s.beginCommand
  exact
    { performed := (performAll_cons (perform_memoryWrite hready a hv) _).trans h.performed
      below := fun b hb hba => by rw [h.below b hb (by omega), hwrite hb, if_neg (by omega)]
      filled := fun i hi => by
        cases i with
        | zero =>
          have ha : a < 256 := hi
          calc t.mem.read a = (memWrite (a : Int) v s.beginCommand).mem.read a := h.below a ha (Nat.lt_succ_self a)
            _ = v := by rw [hwrite ha, if_pos rfl]
        | succ i =>
          have hnext := h.filled i (by omega)
          rw [Nat.add_right_comm, hwrite (by omega), if_neg (by omega)] at hnext
          exact hnext
      wellFormed := h.wellFormed
      x := h.x.trans hx
      pc := h.pc.trans hpc
      ir := h.ir.trans hir
      diag := by
        rw [h.diag, memWrite_diag, State.beginCommand_diag, List.nil_append, List.length_cons, if_neg (Nat.succ_ne_zero _)]
        split
        case isTrue hlast => rw [hlast]; rfl
        case isFalse => congr 1; omega }

theorem exists_loadsFrom {tokens : List Cell} (htokens : ∀ c ∈ tokens, c.WellFormed) (a : Nat) {s : State} (hs : s.WellFormed) :
    ∃ t, LoadsFrom a tokens s t := by
  induction tokens generalizing a s with
  | nil => exact ⟨s, loadsFrom_nil a hs⟩
  | cons v rest ih =>
    obtain ⟨hv, hrest⟩ := List.forall_mem_cons.mp htokens
    have ⟨_, _, _, hready⟩ := hs
    have hu := commandsKeepWellFormed _ s _ hs (perform_memoryWrite hready a hv)
    obtain ⟨t, ht⟩ := ih hrest (a + 1) hu
    exact ⟨t, ht.cons hs hv⟩

/-- Settles O56. -/
theorem bulkLoadFillsFromZero : Obligations.BulkLoadFillsFromZero := by
  intro tokens s hs htokens
  obtain ⟨t, h⟩ := exists_loadsFrom htokens 0 hs
  obtain ⟨-, -, -, hsready⟩ := hs
  obtain ⟨-, hmem, -, hready⟩ := h.wellFormed
  refine ⟨t, h.performed, fun a ha => ?cells, hmem, h.x, h.pc, h.ir, hready.trans hsready.symm, ?events⟩
  case cells =>
    have hcell := h.filled a (by omega)
    rwa [Nat.zero_add] at hcell
  case events =>
    rw [h.diag, Nat.zero_add, memWriteEvents]
    have hfits (hne : tokens.length ≠ 0) : tokens.length - 1 < 256 ↔ tokens.length ≤ 256 := by omega
    split
    case isTrue => rfl
    case isFalse hne => simp only [hfits hne]

end Sys2Proof.Machine
end

section
/-! PROOFS. The count of the events in one step (spec 60_exceptions.md R201): at most one from each access and each check, so at most
three from an execute part, and the `A` that raises three. -/

namespace Sys2Proof.Machine

/-- From `s` to `t` at most `n` events were raised. -/
def RaisesAtMost (n : Nat) (s t : State) : Prop := t.diag.length ≤ s.diag.length + n

theorem RaisesAtMost.mono {m n : Nat} {s t : State} (h : RaisesAtMost m s t) (hle : m ≤ n) : RaisesAtMost n s t :=
  Nat.le_trans h (Nat.add_le_add_left hle _)

theorem RaisesAtMost.trans {m n : Nat} {s t u : State} (h : RaisesAtMost m s t) (h' : RaisesAtMost n t u) :
    RaisesAtMost (m + n) s u := by
  unfold RaisesAtMost at *
  omega

theorem raisesAtMost_of_diag {n : Nat} {s t : State} {events : List Diag} (h : t.diag = s.diag ++ events)
    (hle : events.length ≤ n) : RaisesAtMost n s t := by
  rw [RaisesAtMost, h, List.length_append]
  exact Nat.add_le_add_left hle _

/-! ### Each access raises one event at most (40_storage_ports.md R90 to R93) -/

theorem raisesAtMost_raise (d : Diag) (s : State) : RaisesAtMost 1 s (s.raise d) := raisesAtMost_of_diag rfl (Nat.le_refl 1)

theorem length_regReadEvents_le (i : Int) : (regReadEvents i).length ≤ 1 := by
  rw [regReadEvents_eq_ite]
  split
  case isTrue => exact Nat.zero_le 1
  case isFalse => exact Nat.le_refl 1

theorem length_regWriteEvents_le (i : Int) : (regWriteEvents i).length ≤ 1 := by
  rw [regWriteEvents_eq_ite]
  split
  case isTrue => exact Nat.zero_le 1
  case isFalse => exact Nat.le_refl 1

theorem raisesAtMost_afterRead (i : Int) (s : State) : RaisesAtMost 1 s (afterRead i s) :=
  raisesAtMost_of_diag rfl (length_regReadEvents_le i)

theorem raisesAtMost_regWrite (i : Int) (v : Cell) (s : State) : RaisesAtMost 1 s (regWrite i v s) :=
  raisesAtMost_of_diag (regWrite_diag i v s) (length_regWriteEvents_le i)

theorem raisesAtMost_memRead (a : Int) (s : State) : RaisesAtMost 1 s (memRead a s).2 := by
  rcases memIndex_cases a with ⟨k, hk, rfl, -⟩ | ⟨ho, -⟩
  · rw [memRead_in_range hk]
    exact Nat.le_succ _
  · rw [memRead_out_of_range ho]
    exact raisesAtMost_raise _ s

theorem raisesAtMost_memWrite (a : Int) (v : Cell) (s : State) : RaisesAtMost 1 s (memWrite a v s) := by
  rcases memIndex_cases a with ⟨k, hk, rfl, -⟩ | ⟨ho, -⟩
  · rw [memWrite_in_range hk]
    exact Nat.le_succ _
  · rw [memWrite_out_of_range ho]
    exact raisesAtMost_raise _ s

/-! ### What each operation and the execute part can raise -/

theorem raisesAtMost_cuLoad (reg a : Int) (s : State) : RaisesAtMost 2 s (cuLoad reg a s) :=
  (raisesAtMost_memRead a s).trans (raisesAtMost_regWrite ..)

theorem raisesAtMost_cuStore (reg a : Int) (s : State) : RaisesAtMost 2 s (cuStore reg a s) := by
  rw [cuStore, regRead_eq_afterRead]
  exact (raisesAtMost_afterRead reg s).trans (raisesAtMost_memWrite ..)

theorem raisesAtMost_cuJump (how : Config.JumpCompare) (r : Int) (s : State) : RaisesAtMost 1 s (cuJump how r s) := by
  obtain ⟨-, -, -, -, hdiag⟩ := cuJump_frame how r s
  exact raisesAtMost_of_diag hdiag (length_regReadEvents_le r)

/-- The adder raises one event at most for each read, and then one for the failed check or for the write, never both (R107). -/
theorem raisesAtMost_addIntegers (a b d : Int) (s : State) : RaisesAtMost 3 s (addIntegers a b d s) := by
  have hreads : RaisesAtMost 2 s (afterRead b (afterRead a s)) :=
    (raisesAtMost_afterRead a s).trans (raisesAtMost_afterRead b _)
  rw [addIntegers_eq]
  split
  case isTrue => exact hreads.trans (raisesAtMost_raise ..)
  case isFalse =>
    split
    case isTrue => exact hreads.trans (raisesAtMost_raise ..)
    case isFalse => exact hreads.trans (raisesAtMost_regWrite ..)

theorem raisesAtMost_of_exec {i : Instr} {s t : State} (h : exec i s = .next t) : RaisesAtMost 3 s t := by
  cases i with
  | load f => exact Host.Outcome.next.inj h ▸ (raisesAtMost_cuLoad ..).mono (by decide)
  | store f => exact Host.Outcome.next.inj h ▸ (raisesAtMost_cuStore ..).mono (by decide)
  | addInt f => exact Host.Outcome.next.inj h ▸ raisesAtMost_addIntegers ..
  | jump f => exact Host.Outcome.next.inj h ▸ (raisesAtMost_cuJump ..).mono (by decide)
  | halt f => exact Host.Outcome.next.inj h ▸ (raisesAtMost_raise ..).mono (by decide)

theorem raisesAtMost_of_executeDecoded {d : Decoded} {s t : State} (h : executeDecoded d s = .next t) :
    RaisesAtMost 3 s t := by
  cases d with
  | instruction i => exact raisesAtMost_of_exec h
  | invalidOpcode c => exact Host.Outcome.next.inj h ▸ (raisesAtMost_raise ..).mono (by decide)

/-! ### The step on either side of the end of memory -/

theorem length_step_diag_le_of_lt {s t : State} (hpc : s.pc.toNat < 256) (h : step s = .next t) : t.diag.length ≤ 3 := by
  obtain ⟨-, u, hu, rfl⟩ := (step_eq_next_iff s t).mp h
  have hentry : (stepEntry s).diag = [] := by
    rw [stepEntry_eq]
    exact fetchEvents_of_lt hpc
  have hcount : u.diag.length ≤ (stepEntry s).diag.length + 3 := raisesAtMost_of_executeDecoded hu
  rwa [hentry, List.length_nil, Nat.zero_add] at hcount

theorem length_step_diag_of_le {s t : State} (hpc : 256 ≤ s.pc.toNat) (h : step s = .next t) : t.diag.length = 2 := by
  obtain ⟨hready, -⟩ := (step_eq_next_iff s t).mp h
  obtain ⟨u, hu, -, -, hdiag, -⟩ := fetchBeyondMemory s hready hpc
  obtain rfl := Host.Outcome.next.inj (h.symm.trans hu)
  rw [hdiag]
  rfl

/-! ### The three events of an `A` (R201) -/

/-- With no register in range the operands are both `"00"`, which can be added, so the write is reached and refused too. -/
theorem addIntegers_diag_of_out_of_range {a b d : Int} (ha : a < 0 ∨ 15 < a) (hb : b < 0 ∨ 15 < b) (hd : d < 0 ∨ 15 < d)
    (s : State) :
    (addIntegers a b d s).diag =
      s.diag ++ [.outOfRangeAddress .reg .read a, .outOfRangeAddress .reg .read b, .outOfRangeAddress .reg .write d] := by
  have hvalid : OperandsValid a b s := by
    rw [OperandsValid, regOperand_out_of_range ha, regOperand_out_of_range hb]
    decide
  have hsum : integerSum a b s < 2 ^ 32 := by
    rw [integerSum, regOperand_out_of_range ha, regOperand_out_of_range hb]
    decide
  rw [addIntegers_diag, if_pos hvalid, if_pos hsum, regReadEvents_eq_ite, regReadEvents_eq_ite, regWriteEvents_eq_ite,
    if_neg (by omega), if_neg (by omega), if_neg (by omega)]
  simp only [List.append_assoc, List.cons_append, List.nil_append]

/-- Reset with `AABC0000` where it fetches: `A` on the registers 17, 18 and 19, which the machine does not have. -/
def threeEventState : State := placeWord State.reset (Cell.ofString "AABC0000")

theorem decode_fetchedCell_threeEventState :
    decode (fetchedCell threeEventState) = .instruction (.addInt ⟨17, 18, 19, 0, 0⟩) := by
  decide

theorem exists_step_threeEventState :
    ∃ t, step threeEventState = .next t ∧
      t.diag = [.outOfRangeAddress .reg .read 17, .outOfRangeAddress .reg .read 18, .outOfRangeAddress .reg .write 19] := by
  have hexec : executeDecoded (decode (fetchedCell threeEventState)) (stepEntry threeEventState) =
      .next (addIntegers 17 18 19 (stepEntry threeEventState)) := by
    rw [decode_fetchedCell_threeEventState]
    rfl
  refine ⟨_, step_of_executeDecoded rfl hexec, ?_⟩
  exact addIntegers_diag_of_out_of_range (by decide) (by decide) (by decide) (stepEntry threeEventState)

/-- Settles O30: in memory the fetch raises nothing and the execute part at most three events; beyond memory the fetch and the
invalid opcode raise one each. -/
theorem atMostThreeEventsPerStep : Obligations.AtMostThreeEventsPerStep := by
  refine ⟨fun s t h => ⟨?atMostThree, fun hpc => length_step_diag_of_le hpc h⟩, ?attained⟩
  case atMostThree =>
    rcases Nat.lt_or_ge s.pc.toNat 256 with hpc | hpc
    · exact length_step_diag_le_of_lt hpc h
    · exact length_step_diag_of_le hpc h ▸ (by decide : 2 ≤ 3)
  case attained =>
    obtain ⟨t, ht, hdiag⟩ := exists_step_threeEventState
    exact ⟨threeEventState, t, ht, congrArg List.length hdiag⟩

end Sys2Proof.Machine
end

section
/-! PROOFS. The reset of the core (spec 70_reset_and_hazards.md R220, R221), the run past the end of memory (R228), and the one
canonical form of a memory (20_memory.md R50, R52). -/

namespace Sys2Proof.Machine

/-! ### Reset (R220, R221) -/

/-- Settles O51: the command's effect does not read the state it starts from. -/
theorem resetPortForgetsEverything : Obligations.ResetPortForgetsEverything := fun p _ hready =>
  perform_of_ready hready (.reset p)

/-! ### The run past the end of memory (R228; 44_instruction_cycle.md R161) -/

/-- Settles O28, by induction on the number of steps: the first step leaves `pc` beyond memory, one more and not wrapped, so the rest
of the run counts on from there. The `ir` and the events at the end are the first step's own when no step follows it. -/
theorem beyondMemoryOnlyCounts : Obligations.BeyondMemoryOnlyCounts := by
  intro k
  induction k with
  | zero =>
    intro s hready _ _
    exact ⟨s, core_run_zero s, rfl, rfl, rfl, hready, fun _ => rfl, fun h => absurd h (Nat.lt_irrefl 0)⟩
  | succ k ih =>
    intro s hready hbeyond hbound
    obtain ⟨u, hstep, hupc, huir, hudiag, hux, humem, huready⟩ := fetchBeyondMemory s hready hbeyond
    rw [Nat.mod_eq_of_lt (by omega)] at hupc
    obtain ⟨t, hrun, htpc, htx, htmem, htready, hnone, hsome⟩ := ih u huready (by omega) (by omega)
    refine ⟨t, (core_run_succ k hstep).trans hrun, by omega, htx.trans hux, htmem.trans humem, htready,
      fun h => absurd h (Nat.succ_ne_zero k), fun _ => ?last⟩
    rcases Nat.eq_zero_or_pos k with rfl | hk
    · rw [hnone rfl]
      exact ⟨huir, hudiag⟩
    · have hlast : s.pc.toNat + (k + 1) - 1 = u.pc.toNat + k - 1 := by omega
      rw [hlast]
      exact hsome hk

/-! ### The canonical form of a memory (20_memory.md R50) -/

/-- What an address reads as is the default or the cell of an entry, whatever the list. -/
theorem readEntries_eq_zeros_or_mem (es : List (Nat × Cell)) (a : Nat) :
    readEntries es a = Cell.zeros ∨ (a, readEntries es a) ∈ es := by
  induction es with
  | nil => exact .inl rfl
  | cons p rest ih =>
    rw [readEntries]
    split
    case isTrue ha => exact .inr (ha ▸ List.mem_cons_self)
    case isFalse => exact ih.imp_right (List.mem_cons_of_mem p)

/-- In a rising list no entry hides a later one. -/
theorem readEntries_of_mem {es : List (Nat × Cell)} (h : es.Pairwise fun p q => p.1 < q.1) {p : Nat × Cell} (hp : p ∈ es) :
    readEntries es p.1 = p.2 := by
  induction es with
  | nil => exact absurd hp List.not_mem_nil
  | cons q rest ih =>
    obtain ⟨hlt, hrest⟩ := List.pairwise_cons.mp h
    rw [readEntries]
    rcases List.mem_cons.mp hp with rfl | hmem
    · exact if_pos rfl
    · rw [if_neg (Nat.ne_of_gt (hlt p hmem))]
      exact ih hrest hmem

/-- The entries of a canonical memory are the addresses that do not read as the default, each with what it reads as. -/
theorem Memory.mem_entries_iff {m : Memory} (hm : m.WellFormed) (p : Nat × Cell) :
    p ∈ m.entries ↔ m.read p.1 = p.2 ∧ p.2 ≠ Cell.zeros := by
  obtain ⟨hrising, hentries⟩ := hm
  constructor
  · intro hp
    obtain ⟨-, hne, -⟩ := hentries p hp
    exact ⟨readEntries_of_mem hrising hp, hne⟩
  · rintro ⟨hread, hne⟩
    have hlisted := readEntries_eq_zeros_or_mem m.entries p.1
    rw [Memory.read] at hread
    rw [hread] at hlisted
    exact hlisted.resolve_left hne

/-- Two lists that rise in their addresses and hold the same entries are the same list. -/
theorem eq_of_rising_of_mem_iff {es fs : List (Nat × Cell)} (hes : es.Pairwise fun p q => p.1 < q.1)
    (hfs : fs.Pairwise fun p q => p.1 < q.1) (h : ∀ p, p ∈ es ↔ p ∈ fs) : es = fs := by
  have nodup {gs : List (Nat × Cell)} (hgs : gs.Pairwise fun p q => p.1 < q.1) : gs.Nodup :=
    hgs.imp fun hlt heq => Nat.ne_of_lt hlt (congrArg Prod.fst heq)
  exact ((List.perm_ext_iff_of_nodup (nodup hes) (nodup hfs)).mpr h).eq_of_pairwise
    (fun _ _ _ _ hlt hgt => absurd hgt (Nat.lt_asymm hlt)) hes hfs

/-- Settles O15: what a canonical memory reads as says which entries it has, and their order is the addresses'. -/
theorem canonicalMemoryIsUnique : Obligations.CanonicalMemoryIsUnique := by
  intro m n hm hn hread
  have hmem (p : Nat × Cell) : p ∈ m.entries ↔ p ∈ n.entries := by
    rw [Memory.mem_entries_iff hm, Memory.mem_entries_iff hn, hread]
  exact congrArg Memory.mk (eq_of_rising_of_mem_iff hm.1 hn.1 hmem)

end Sys2Proof.Machine
end
